-- ==== Sys2Proof/Config.lean ====
section
/-! DEFINITION. What an implementation fixes, and the values the spec leaves open
(spec/00_scope.md section 5, spec/92_eei_decisions.md, spec/93_implementation_defined.md). -/

namespace Sys2Proof

/-- `HAS_ENCW`: whether the out-of-core bounded-width operation `ENCW` exists
(spec/00_scope.md section 5: "`true` in this spec"; spec/92_eei_decisions.md D13). -/
def Config.hasEncw : Bool := true

/-- `SUB_UNDERFLOW` before its bound is applied: the open function of the two operand values that
`SUB` returns when the subtrahend exceeds the minuend (R62, D11, U1). A free value: no body.
`Machine.subUnderflow` brings it below `2 ^ L`, the one property the spec gives it. -/
opaque Config.subUnderflowRaw : Nat → Nat → Nat

/-- A free bit for each count: what the physical storage of a one-bit transient register holds once
the operation that used it has ended (R13, R19, U7: any value). A free value: no body. -/
opaque Config.idleBit : Nat → Bool

/-- A free number for each count: what the physical storage of a transient register wider than a
bit holds once the operation that used it has ended (R13 to R15, R19, U7: any value). A free value:
no body. -/
opaque Config.idleNat : Nat → Nat

end Sys2Proof
end

