-- ==== Sys2Proof/Word.lean ====
section
/-! DEFINITION. The value types of the hardware (spec/10_state.md rule R11): Bit, Byte, BitVector.
Nat is Lean's own and a BitSeq is a list of bits. -/

namespace Sys2Proof

/-- R11 (1): a Bit is 0 (`false`) or 1 (`true`). -/
abbrev Bit := Bool

/-- R11 (2): a Byte is an integer from 0 to 255. -/
abbrev Byte := BitVec 8

/-- R11 (5): a BitSeq is a finite sequence of bits, written first element first. -/
abbrev BitSeq := List Bit

/-- R11 (4), R40: a byte sequence is canonical when it has at least one byte and either exactly one
byte or a most-significant (last) byte that is not 0. -/
def canonicalBytes (bs : List Byte) : Bool :=
  bs.length == 1 || bs.getLast?.any (· != 0#8)

/-- R11 (4): a BitVector, a canonical byte sequence with the least significant byte first. The
invariant is part of the type, as R11 advises, so that a non-canonical BitVector cannot be built. -/
structure BitVector where
  bytes : List Byte
  canonical : canonicalBytes bytes = true
deriving DecidableEq, Repr

end Sys2Proof
end

