-- ==== Sys2Proof/Syntax.lean ====
section
/-! DEFINITION. The whole syntax: the eleven operations (spec/30_encoding.md rule R31), and the
requests and responses that carry them (rules R30, R32, R33; spec/60_exceptions.md rule R83). -/

namespace Sys2Proof

/-- The eleven operations of R31, one constructor per row of spec/opcode_table.json. An operation has
no operand field: R30 gives the request one encoded field, `op`, and its operands arrive as typed
values on the ports `A`, `B`, `C` (`Ports` below). -/
inductive Instr where
  /-- `ENC`, `from_integer(n)` (R41). -/
  | enc
  /-- `DEC`, `to_integer(v)` (R43). -/
  | dec
  /-- `BITS`, `bits(v)` (R44). -/
  | bits
  /-- `BITSR`, `bits_reversed(v)` (R45). -/
  | bitsr
  /-- `SHL`, `shift_left(v, amount)` (R46). -/
  | shl
  /-- `FA`, `full_adder(a, b, carry_in)` (R50). -/
  | fa
  /-- `ADD`, `add(n, m)` (R55). -/
  | add
  /-- `SUB`, `subtract(n, m)` (R60). -/
  | sub
  /-- `MUL`, `multiply(n, m)` (R65). -/
  | mul
  /-- `DIV`, `divide(n, m)` (R70, R71). -/
  | div
  /-- `ENCW`, `from_integer(n)` with `declared_byte_width` (R42). -/
  | encw
deriving DecidableEq, Repr

/-- The three operand ports of R30. -/
inductive Port where
  | a
  | b
  | c
deriving DecidableEq, Repr

/-- What the host may drive on an operand port, before any check: R35 names the ill-formed values
that the hardware gives no meaning (a negative integer, a bit other than 0 or 1, a byte sequence that
is empty or not canonical), so the raw value must be able to hold them. -/
inductive PortValue where
  /-- The port carries nothing (R30: "Ports an operation does not use carry nothing"). -/
  | nothing
  /-- An integer: a Nat operand, or a Bit operand when it is 0 or 1. -/
  | integer (z : Int)
  /-- A byte sequence, least significant byte first. -/
  | bytes (bs : List Byte)
  /-- A bit sequence; no operation takes one. -/
  | bitSeq (xs : BitSeq)
deriving DecidableEq, Repr

/-- The values on the three operand ports of one request. -/
structure Ports where
  a : PortValue
  b : PortValue
  c : PortValue
deriving DecidableEq, Repr

/-- The value on one port. -/
def Ports.get (p : Ports) : Port → PortValue
  | .a => p.a
  | .b => p.b
  | .c => p.c

/-- R30: a request is an operation select `op[3:0]` and up to three operands. -/
structure Request where
  op : BitVec 4
  ports : Ports
deriving DecidableEq, Repr

/-- The port value that carries a Nat. -/
def PortValue.ofNat (n : Nat) : PortValue := .integer (Int.ofNat n)

/-- The port value that carries a Bit: the integer 0 or 1 (spec/00_scope.md section 6). -/
def PortValue.ofBit (b : Bit) : PortValue := .ofNat b.toNat

/-- The port value that carries a BitVector: its bytes. -/
def PortValue.ofBitVector (v : BitVector) : PortValue := .bytes v.bytes

/-- A typed result value (R33; the types of R11). -/
inductive Value where
  | bit (b : Bit)
  | nat (n : Nat)
  | bitVector (v : BitVector)
  | bitSeq (xs : BitSeq)
deriving DecidableEq, Repr

/-- R83: the status of a response, an enumeration of three. -/
inductive Status where
  /-- The operation's rule completed. -/
  | ok
  /-- R81: raised by `ENCW` only. -/
  | outOfRange
  /-- R82: raised by `DIV` only. -/
  | divisionByZero
deriving DecidableEq, Repr

/-- R80: "Two error kinds only". -/
inductive ErrorKind where
  /-- R81. -/
  | outOfRange
  /-- R82. -/
  | divisionByZero
deriving DecidableEq, Repr

/-- The status that reports an error (R83). -/
def ErrorKind.status : ErrorKind → Status
  | .outOfRange => .outOfRange
  | .divisionByZero => .divisionByZero

/-- R30: a response is a status and up to two result values, on the ports `Y0` and `Y1`. -/
structure Response where
  status : Status
  y0 : Option Value
  y1 : Option Value
deriving DecidableEq, Repr

/-- The response of an operation that completed with one result (R33). -/
def Response.okOne (v : Value) : Response := ⟨.ok, some v, none⟩

/-- The response of an operation that completed with two results (R33). -/
def Response.okTwo (v w : Value) : Response := ⟨.ok, some v, some w⟩

/-- R85: an error response carries its status alone; no result port carries a value. -/
def Response.error (e : ErrorKind) : Response := ⟨e.status, none, none⟩

/-- One request and the response it was given, as the host sees them (spec/95_test_vectors.md
section 9 writes programs as lists of these). -/
structure Exchange where
  request : Request
  response : Response
deriving DecidableEq, Repr

end Sys2Proof
end

