-- ==== Sys2Proof/WellFormed.lean ====
section
/-! DEFINITION. Which requests are well-formed (spec/30_encoding.md rules R32, R35): every used port
carries a value of the type the operation names, and the operation exists in this configuration. -/

namespace Sys2Proof

/-- The types an operand port can be declared with in R32's table. -/
inductive OperandType where
  | unused
  | bit
  | nat
  | bitVector
deriving DecidableEq, Repr

/-- R32's table: the type each operation gives each operand port. -/
def Instr.operandType : Instr → Port → OperandType
  | .enc, .a => .nat
  | .dec, .a => .bitVector
  | .bits, .a => .bitVector
  | .bitsr, .a => .bitVector
  | .shl, .a => .bitVector
  | .shl, .b => .nat
  | .fa, .a => .bit
  | .fa, .b => .bit
  | .fa, .c => .bit
  | .add, .a => .bitVector
  | .add, .b => .bitVector
  | .sub, .a => .bitVector
  | .sub, .b => .bitVector
  | .mul, .a => .bitVector
  | .mul, .b => .bitVector
  | .div, .a => .bitVector
  | .div, .b => .bitVector
  | .encw, .a => .nat
  | .encw, .b => .nat
  | .enc, .b | .dec, .b | .bits, .b | .bitsr, .b => .unused
  | .enc, .c | .dec, .c | .bits, .c | .bitsr, .c | .shl, .c | .add, .c | .sub, .c
  | .mul, .c | .div, .c | .encw, .c => .unused

/-- R35: a port value is of the type R32 names. An unused port is ignored (R30). -/
def OperandType.admits : OperandType → PortValue → Bool
  | .unused, _ => true
  | .bit, .integer z => z == 0 || z == 1
  | .nat, .integer z => decide (0 ≤ z)
  | .bitVector, .bytes bs => canonicalBytes bs
  | .bit, .nothing | .bit, .bytes _ | .bit, .bitSeq _ => false
  | .nat, .nothing | .nat, .bytes _ | .nat, .bitSeq _ => false
  | .bitVector, .nothing | .bitVector, .integer _ | .bitVector, .bitSeq _ => false

/-- R35: the operands of a request are well-formed for an operation. -/
def Instr.operandsWf (i : Instr) (p : Ports) : Bool :=
  (i.operandType .a).admits (p.get .a) && (i.operandType .b).admits (p.get .b) &&
    (i.operandType .c).admits (p.get .c)

/-- R31, R34: an operation exists in a build: all but `ENCW` always, `ENCW` only if `HAS_ENCW`. -/
def Instr.existsWith (hasEncw : Bool) : Instr → Bool
  | .encw => hasEncw
  | .enc | .dec | .bits | .bitsr | .shl | .fa | .add | .sub | .mul | .div => true

end Sys2Proof
end

