-- ==== Sys2Proof/Decode.lean ====
section
/-! DEFINITION. The operation select decoder and encoder (spec/30_encoding.md rules R30, R31, R34). -/

namespace Sys2Proof

/-- One row of spec/opcode_table.json: the operation, and the mask and match of its select code. -/
structure OpcodeRow where
  instr : Instr
  mask : BitVec 4
  code : BitVec 4
deriving DecidableEq, Repr

/-- R31's table. "A decoder compares all four bits of `op` (mask `0xF`)." -/
def opcodeTable : List OpcodeRow :=
  [⟨.enc, 0xF#4, 0x0#4⟩, ⟨.dec, 0xF#4, 0x1#4⟩, ⟨.bits, 0xF#4, 0x2#4⟩, ⟨.bitsr, 0xF#4, 0x3#4⟩,
   ⟨.shl, 0xF#4, 0x4#4⟩, ⟨.fa, 0xF#4, 0x5#4⟩, ⟨.add, 0xF#4, 0x6#4⟩, ⟨.sub, 0xF#4, 0x7#4⟩,
   ⟨.mul, 0xF#4, 0x8#4⟩, ⟨.div, 0xF#4, 0x9#4⟩, ⟨.encw, 0xF#4, 0xA#4⟩]

/-- Why a select code names no operation. -/
inductive DecodeError where
  /-- R34: "returns `invalid` for these codes": 0xB to 0xF, and 0xA when `HAS_ENCW` is false. -/
  | invalid (op : BitVec 4)
deriving DecidableEq, Repr

/-- A select code matches a row under its mask. -/
def OpcodeRow.matches (row : OpcodeRow) (op : BitVec 4) : Bool := op &&& row.mask == row.code

/-- R31, R34: the decoder of a build with or without `ENCW`; total, and a code that selects no
operation of the build is `invalid`. -/
def decodeWith (hasEncw : Bool) (op : BitVec 4) : Except DecodeError Instr :=
  match opcodeTable.find? (fun row => row.matches op && row.instr.existsWith hasEncw) with
  | some row => .ok row.instr
  | none => .error (.invalid op)

/-- The decoder of this hardware. -/
def decode (op : BitVec 4) : Except DecodeError Instr := decodeWith Config.hasEncw op

/-- R31: the select code of an operation, the whole of its encoding (R30: "The `op` field is the only
field with a bit-level encoding"). -/
def encode : Instr → BitVec 4
  | .enc => 0x0#4
  | .dec => 0x1#4
  | .bits => 0x2#4
  | .bitsr => 0x3#4
  | .shl => 0x4#4
  | .fa => 0x5#4
  | .add => 0x6#4
  | .sub => 0x7#4
  | .mul => 0x8#4
  | .div => 0x9#4
  | .encw => 0xA#4

/-- The field `op[3:0]` of a word of `nbits` bits (spec/00_scope.md section 6, slicing):
`floor(w / 2^0) mod 2^4`. -/
def selectOfWord (nbits w : Nat) : BitVec 4 := BitVec.ofNat 4 (w % 2 ^ nbits)

/-- The operation the decoder reads from an instruction word whose bits are `w`. -/
def decodeTableWord (nbits w : Nat) : Option Instr :=
  match decode (selectOfWord nbits w) with
  | .ok i => some i
  | .error _ => none

end Sys2Proof
end

