-- ==== Sys2Proof/Machine/State.lean ====
section
/-! DEFINITION. The state of the machine as plain data (spec/10_state.md), the reasons a step can
stop, and the state after reset. -/

namespace Sys2Proof.Machine

/-- R10, R19: the machine state. -/
inductive Phase where
  /-- No operation in flight: the only state between two operations (R10). -/
  | idle
  /-- An accepted operation that has not yet given its response. -/
  | running (i : Instr)
deriving DecidableEq, Repr

/-- R13: the three transient registers of the Adder, and likewise of the Subtractor. -/
structure RippleRegs where
  /-- The running carry. -/
  carry : Bit
  /-- The sum bits accumulated at their bit positions. -/
  result : Nat
  /-- The bit position being processed. -/
  i : Nat
deriving DecidableEq, Repr

/-- R14: the two transient registers of the Multiplier. -/
structure MultiplierRegs where
  /-- The accumulator. -/
  acc : BitVector
  /-- The position counter. -/
  pos : Nat
deriving DecidableEq, Repr

/-- R15: the two transient registers of the Divider. -/
structure DividerRegs where
  quotient : Nat
  remainder : Nat
deriving DecidableEq, Repr

/-- The physical storage of every transient register: the table under R15. -/
structure Work where
  adder : RippleRegs
  subtractor : RippleRegs
  multiplier : MultiplierRegs
  divider : DividerRegs
deriving DecidableEq, Repr

/-- The whole state. The hardware's own state is `phase` and `work`; `requests` and `transcript` are
the host's side of the ports (R12, R25, R28: a program is the host's list of requests, and results
leave with the response); `freeCount` is the model's own. There is no register file, program counter,
control register or memory (R12, R16, R17, R18). -/
structure State where
  /-- R10, R19: `Idle`, or the operation in flight. -/
  phase : Phase
  /-- R13 to R15: the storage of the transient registers. -/
  work : Work
  /-- THE MODEL'S OWN: how many free values have been taken so far. -/
  freeCount : Nat
  /-- THE HOST'S: its requests not yet performed, in the order requested (R25); the head is the
  request on the ports. -/
  requests : List Request
  /-- THE HOST'S: the requests performed so far and the responses they were given, oldest first. -/
  transcript : List Exchange
deriving DecidableEq, Repr

/-- The reasons the machine stops with a fault. There is none: the two errors of R80 are responses
(R85), after which the machine is `Idle` and goes on (R88), so no constructor is given. Safe: nothing
is ever claimed of a fault. -/
inductive Fault where
deriving DecidableEq, Repr

/-- The reasons the machine gives a request no meaning (R34, R35, R84: "a refusal marks the run as
outside the model"). -/
inductive Refusal where
  /-- Raised by an arm of `exec` whose instruction has no meaning yet. No arm raises it. Safe. -/
  | notModelled (mnemonic : String)
  /-- Raised by the step for a select code that selects no operation: 0xB to 0xF, and 0xA without
  `ENCW` (R34, U2). Safe. -/
  | reservedSelect (op : BitVec 4)
  /-- Raised by every operation for the first used port, in the order `A`, `B`, `C`, whose value is
  not of the type R32 names (R35, U3 to U5). Safe. -/
  | illFormedOperand (port : Port)
deriving DecidableEq, Repr

/-- The BitVector `[0x00]`, the canonical encoding of 0 (R40). -/
def zeroBitVector : BitVector := ⟨[0x00#8], rfl⟩

/-- What the transient registers' storage holds at reset. The spec leaves it unspecified (R19, U7);
DESIGN CHOICE (assumption 4, unsafe): the value each register's operation gives it at its start, from
the table under R15. -/
def Work.reset : Work :=
  { adder := ⟨false, 0, 0⟩
    subtractor := ⟨true, 0, 0⟩
    multiplier := ⟨zeroBitVector, 0⟩
    divider := ⟨0, 0⟩ }

/-- R19, R90: after reset the hardware is `Idle` with no operation in flight. The host has requested
nothing yet. -/
def State.reset : State :=
  { phase := .idle
    work := Work.reset
    freeCount := 0
    requests := []
    transcript := [] }

end Sys2Proof.Machine
end

