-- ==== Sys2Proof/Machine/Flags.lean ====
section
/-! DEFINITION. The full adder, the running carry threaded through it (the hardware's only flag-like
state: spec/10_state.md rule R13), and the status codes (spec/60_exceptions.md rule R83). -/

namespace Sys2Proof.Machine

/-- The two outputs of the full adder. -/
structure AdderOut where
  sum : Bit
  carryOut : Bit
deriving DecidableEq, Repr

/-- R50: "sum = a XOR b XOR carry_in", "carry_out = (a AND b) OR (carry_in AND (a XOR b))". R51: the
only place where bit-level Boolean logic is defined. -/
def fullAdder (a b cin : Bit) : AdderOut :=
  let x := a ^^ b
  { sum := x ^^ cin, carryOut := (a && b) || (cin && x) }

/-- R55: bit `i` of an operand's forward bit view; "treat a missing bit as 0". -/
def bitAt (xs : BitSeq) (i : Nat) : Bit := xs.getD i false

/-- R55, R60: the number of positions of a ripple, the length of the longer bit view. -/
def rippleLength (xs ys : BitSeq) : Nat := max xs.length ys.length

/-- R13: the transient registers at the start of an `ADD` (carry seed 0) or a `SUB` (carry seed 1). -/
def RippleRegs.seeded (seed : Bit) : RippleRegs := ⟨seed, 0, 0⟩

/-- One position of a ripple (the loop body of R55's and R60's pseudocode): the position's two bits
and the running carry into the full adder, the sum bit accumulated at its bit position. -/
def RippleRegs.feed (r : RippleRegs) (a b : Bit) : RippleRegs :=
  let out := fullAdder a b r.carry
  { carry := out.carryOut, result := r.result + out.sum.toNat * 2 ^ r.i, i := r.i + 1 }

/-- `k` positions of a ripple, from the position the registers stand at; `f` is what the block does to
each bit of the second operand (nothing in R55, XOR with 1 in R60, after a missing bit is taken
as 0). -/
def RippleRegs.run (f : Bit → Bit) (xs ys : BitSeq) : Nat → RippleRegs → RippleRegs
  | 0, r => r
  | k + 1, r => RippleRegs.run f xs ys k (r.feed (bitAt xs r.i) (f (bitAt ys r.i)))

/-- R55: "if the final carry-out is 1, append it as one more high bit". -/
def RippleRegs.appendCarry (r : RippleRegs) : RippleRegs :=
  { r with result := r.result + r.carry.toNat * 2 ^ r.i }

/-- R83: the 2-bit code of a status. -/
def statusCode : Status → BitVec 2
  | .ok => 0#2
  | .outOfRange => 1#2
  | .divisionByZero => 2#2

end Sys2Proof.Machine
end

