-- ==== Sys2Proof/Machine/Ops.lean ====
section
/-! DEFINITION. The named operations: over BitVectors (spec/40_bitvector.md), over the transient
registers, and over the whole state (accepting a request, giving its response, raising an error,
reset). -/

namespace Sys2Proof.Machine

/-! ### BitVectors -/

/-- The byte `n mod 256`. -/
def lowByte (n : Nat) : Byte := BitVec.ofNat 8 n

/-- R41's loop, with at most `fuel` further turns: emit `n mod 256`, divide by 256, until 0. -/
def encBytes : Nat → Nat → List Byte
  | 0, n => [lowByte n]
  | fuel + 1, n => lowByte n :: (if n / 256 = 0 then [] else encBytes fuel (n / 256))

theorem encBytes_ne_nil (fuel n : Nat) : encBytes fuel n ≠ [] := by
  cases fuel <;> simp [encBytes]

theorem lowByte_eq_zero_iff (n : Nat) : lowByte n = 0#8 ↔ n % 256 = 0 := by
  rw [← BitVec.toNat_inj]; simp [lowByte]

/-- R40: "For `n > 0` its last byte is not 0." -/
theorem encBytes_getLast_ne_zero (fuel n : Nat) (hf : n ≤ fuel) (hn : 0 < n) (b : Byte)
    (h : (encBytes fuel n).getLast? = some b) : b ≠ 0#8 := by
  induction fuel generalizing n with
  | zero => omega
  | succ fuel ih =>
    by_cases hq : n / 256 = 0
    · simp only [encBytes, hq, if_true, List.getLast?_singleton, Option.some.injEq] at h
      subst h
      rw [Ne, lowByte_eq_zero_iff]; omega
    · rw [encBytes, if_neg hq,
        List.getLast?_cons_of_ne_nil (encBytes_ne_nil fuel (n / 256))] at h
      exact ih (n / 256) (by omega) (by omega) h

/-- R40, R41: the encoding is canonical. -/
theorem encBytes_canonical (n : Nat) : canonicalBytes (encBytes n n) = true := by
  rcases Nat.eq_zero_or_pos n with rfl | hn
  · rfl
  · have hne := encBytes_ne_nil n n
    obtain ⟨b, hb⟩ := Option.ne_none_iff_exists'.mp
      (mt List.getLast?_eq_none_iff.mp hne)
    have := encBytes_getLast_ne_zero n n le_rfl hn b hb
    simp [canonicalBytes, hb, this]

/-- R40, R41: `enc(n)`, the canonical BitVector of `n`. The loop needs at most `n` turns. -/
def enc (n : Nat) : BitVector := ⟨encBytes n n, encBytes_canonical n⟩

/-- R40: `nbytes(n)`, the number of bytes of the canonical encoding of `n`. -/
def nbytes (n : Nat) : Nat := (enc n).bytes.length

/-- The value of a byte sequence, least significant byte first (R20). -/
def valBytes : List Byte → Nat
  | [] => 0
  | b :: bs => b.toNat + 256 * valBytes bs

/-- R43: `val(v)`, the sum of `bytes(v)[i] * 256^i`. -/
def val (v : BitVector) : Nat := valBytes v.bytes

/-- R44: "exactly 8 bits", bit 0 first. -/
def byteBits (b : Byte) : BitSeq := (List.range 8).map b.toNat.testBit

/-- R44's loop on the most significant byte, with at most `fuel` further turns: "stop once no
remaining bits are set". -/
def significantBits : Nat → Nat → BitSeq
  | 0, _ => []
  | fuel + 1, b => if b = 0 then [] else (b % 2 == 1) :: significantBits fuel (b / 2)

/-- R44: eight bits for every byte but the most significant, of which only the significant bits. -/
def bitsOfBytes : List Byte → BitSeq
  | [] => []
  | [b] => significantBits 8 b.toNat
  | b :: bs => byteBits b ++ bitsOfBytes bs

/-- R44: the forward bit view; "value zero yields the single bit 0 (not an empty sequence)". -/
def bits (v : BitVector) : BitSeq := if val v = 0 then [false] else bitsOfBytes v.bytes

/-- R45: the "exact reverse of `bits`". -/
def bitsReversed (v : BitVector) : BitSeq := (bits v).reverse

/-- R48: `bitlen(v)`, the length of the forward bit view. -/
def bitlen (v : BitVector) : Nat := (bits v).length

/-- R46: `shl(v, k) = enc(val(v) * 2^k)`, the numeric shortcut of R67 and R96. -/
def shl (v : BitVector) (k : Nat) : BitVector := enc (val v * 2 ^ k)

/-- R62: `SUB_UNDERFLOW(a, b)`, an open value below `2^L` with `L` the bit length of the longer
operand: the free function of Config, brought below the bound (assumption 2). -/
def subUnderflow (a b : Nat) : Nat :=
  Config.subUnderflowRaw a b % 2 ^ max (bitlen (enc a)) (bitlen (enc b))

/-! ### The two ripples, over the storage of the transient registers -/

/-- R55: one whole `ADD` in the Adder's registers; its result is left in `adder.result`. -/
def Work.addRun (w : Work) (n m : BitVector) : Work :=
  let xs := bits n
  let ys := bits m
  { w with adder := (RippleRegs.run id xs ys (rippleLength xs ys)
      (RippleRegs.seeded false)).appendCarry }

/-- R60: the ripple of one `SUB`: `m`'s bits complemented, carry seed 1, final carry discarded. -/
def subRipple (n m : BitVector) : RippleRegs :=
  let xs := bits n
  let ys := bits m
  RippleRegs.run (fun b => b ^^ true) xs ys (rippleLength xs ys) (RippleRegs.seeded true)

/-- R60, R62: one whole `SUB` in the Subtractor's registers; its result is left in
`subtractor.result`. When the subtrahend exceeds the minuend the result is the open value of R62. -/
def Work.subRun (w : Work) (n m : BitVector) : Work :=
  let r := subRipple n m
  { w with subtractor :=
      { r with result := if val n < val m then subUnderflow (val n) (val m) else r.result } }

/-! ### The state -/

/-- The operand ports: those of the request at the head of the host's list; they carry nothing when
there is none (R30). -/
def State.ports (s : State) : Ports :=
  match s.requests with
  | [] => ⟨.nothing, .nothing, .nothing⟩
  | r :: _ => r.ports

/-- R19, R25: an accepted operation is in flight. -/
def State.begin (s : State) (i : Instr) : State := { s with phase := .running i }

/-- What one block does to the transient registers. -/
def State.onWork (s : State) (f : Work → Work) : State := { s with work := f s.work }

/-- R85, R88, R25: the response is given to the request that caused it, the request is done with, and
the hardware is `Idle`. -/
def State.respond (s : State) (resp : Response) : State :=
  { s with
    phase := .idle
    requests := s.requests.drop 1
    transcript := s.transcript ++ (s.requests.take 1).map (fun r => ⟨r, resp⟩) }

/-- R85: raising an error, the one shared form of an exception: the operation ends at once with the
error's status and no result value, nothing is saved, no handler is entered, and the hardware is
`Idle` (R88; there is no return from it). -/
def State.raise (s : State) (e : ErrorKind) : State := s.respond (.error e)

/-- R13, U7: the Adder's registers do not survive the operation: their storage holds free values. -/
def State.releaseAdder (s : State) : State :=
  { s with
    work := { s.work with adder :=
      ⟨Config.idleBit s.freeCount, Config.idleNat s.freeCount, Config.idleNat (s.freeCount + 1)⟩ }
    freeCount := s.freeCount + 2 }

/-- R13, U7: likewise the Subtractor's. -/
def State.releaseSubtractor (s : State) : State :=
  { s with
    work := { s.work with subtractor :=
      ⟨Config.idleBit s.freeCount, Config.idleNat s.freeCount, Config.idleNat (s.freeCount + 1)⟩ }
    freeCount := s.freeCount + 2 }

/-- R14, R19, U7: likewise the Multiplier's. Every BitVector is the encoding of its value (R48), so
a free number encoded is a free BitVector. -/
def State.releaseMultiplier (s : State) : State :=
  { s with
    work := { s.work with multiplier :=
      ⟨enc (Config.idleNat s.freeCount), Config.idleNat (s.freeCount + 1)⟩ }
    freeCount := s.freeCount + 2 }

/-- R15, R19, U7: likewise the Divider's. -/
def State.releaseDivider (s : State) : State :=
  { s with
    work := { s.work with divider :=
      ⟨Config.idleNat s.freeCount, Config.idleNat (s.freeCount + 1)⟩ }
    freeCount := s.freeCount + 2 }

/-- R90: reset applied from outside. The hardware is `Idle`, an operation in flight is abandoned and
its request gets no response, and no value survives in the transient registers (U7: free values). The
host's other requests and what it has received are the host's own. -/
def State.applyReset (s : State) : State :=
  let requests := match s.phase with
    | .idle => s.requests
    | .running _ => s.requests.drop 1
  { s.releaseAdder.releaseSubtractor.releaseMultiplier.releaseDivider with
    phase := .idle
    requests := requests }

/-- What the unit does next: the operation in flight if there is one; else the operation the request
on the ports selects (R30, R31), a refusal if its code selects none (R34), or nothing if the host has
requested nothing. -/
def State.nextOperation (s : State) : Except Refusal (Option Instr) :=
  match s.phase with
  | .running i => .ok (some i)
  | .idle =>
    match s.requests with
    | [] => .ok none
    | r :: _ =>
      match decode r.op with
      | .ok i => .ok (some i)
      | .error (.invalid op) => .error (.reservedSelect op)

end Sys2Proof.Machine
end

