-- ==== Sys2Proof/Machine/Operands.lean ====
section
/-! DEFINITION. The operand forms: a port read as each of the types of spec/30_encoding.md rule R32,
refused when it does not carry one (rule R35). -/

namespace Sys2Proof.Machine

/-- R35: "a Nat is a non-negative integer". -/
def asNat : PortValue → Option Nat
  | .integer (.ofNat n) => some n
  | .integer (.negSucc _) | .nothing | .bytes _ | .bitSeq _ => none

/-- R35: "a Bit is 0 or 1". -/
def asBit : PortValue → Option Bit
  | .integer z => if z = 0 then some false else if z = 1 then some true else none
  | .nothing | .bytes _ | .bitSeq _ => none

/-- R35: a BitVector has at least one byte and is canonical. -/
def asBitVector : PortValue → Option BitVector
  | .bytes bs => if h : canonicalBytes bs = true then some ⟨bs, h⟩ else none
  | .nothing | .integer _ | .bitSeq _ => none

/-- Read a port as a Nat and go on, or refuse (R35). -/
def State.withNat (s : State) (p : Port)
    (k : Nat → Host.Outcome State Fault Refusal) : Host.Outcome State Fault Refusal :=
  match asNat (s.ports.get p) with
  | some n => k n
  | none => .refused (.illFormedOperand p)

/-- Read a port as a Bit and go on, or refuse (R35). -/
def State.withBit (s : State) (p : Port)
    (k : Bit → Host.Outcome State Fault Refusal) : Host.Outcome State Fault Refusal :=
  match asBit (s.ports.get p) with
  | some b => k b
  | none => .refused (.illFormedOperand p)

/-- Read a port as a BitVector and go on, or refuse (R35). -/
def State.withBitVector (s : State) (p : Port)
    (k : BitVector → Host.Outcome State Fault Refusal) : Host.Outcome State Fault Refusal :=
  match asBitVector (s.ports.get p) with
  | some v => k v
  | none => .refused (.illFormedOperand p)

/-- The zero of each operand type, as a port carries it; an unused port carries nothing. -/
def zeroOperand : OperandType → PortValue
  | .unused => .nothing
  | .bit => .ofBit false
  | .nat => .ofNat 0
  | .bitVector => .ofBitVector zeroBitVector

/-- The request for a select code with every operand zero. -/
def zeroRequest (op : BitVec 4) : Request :=
  match decode op with
  | .ok i =>
    ⟨op, zeroOperand (i.operandType .a), zeroOperand (i.operandType .b), zeroOperand (i.operandType .c)⟩
  | .error _ => ⟨op, .nothing, .nothing, .nothing⟩

end Sys2Proof.Machine
end

