-- ==== Sys2Proof/Machine/Adder.lean ====
section
/-! DEFINITION. ripple_carry_adder: `ADD` (spec/42_adder.md). -/

namespace Sys2Proof.Machine

/-- R55: `ADD n, m -> Y0`, the ripple of the full adder over both bit views. -/
def execAdd (s : State) : Host.Outcome State Fault Refusal :=
  s.withBitVector .a fun n => s.withBitVector .b fun m =>
    let t := (s.begin .add).onWork (fun w => w.addRun n m)
    .next (t.releaseAdder.respond (.okOne (.nat t.work.adder.result)))

end Sys2Proof.Machine
end

