-- ==== Sys2Proof/Machine/Divider.lean ====
section
/-! DEFINITION. restoring_binary_divider: `DIV` (spec/45_divider.md). -/

namespace Sys2Proof.Machine

/-- R71 steps 2a and 2b: quotient and remainder doubled, the remainder's low bit set to `b`. -/
def Work.divShift (w : Work) (b : Bit) : Work :=
  { w with divider :=
      { quotient := w.divider.quotient * 2, remainder := w.divider.remainder * 2 + b.toNat } }

/-- R71 step 2c, taken: the remainder replaced by a bit-serial subtraction in the Subtractor's
registers, the quotient's low bit set. -/
def Work.divSubtract (w : Work) (m : BitVector) : Work :=
  let w := w.subRun (enc w.divider.remainder) m
  { w with divider :=
      { quotient := w.divider.quotient + 1, remainder := w.subtractor.result } }

/-- One step of R71's loop, for one bit of the dividend; the comparison is of plain integers (R75). -/
def Work.divStep (m : BitVector) (w : Work) (b : Bit) : Work :=
  let w := w.divShift b
  if val m ≤ w.divider.remainder then w.divSubtract m else w

/-- R71: the steps for a sequence of bits of the dividend, from quotient 0 and remainder 0. -/
def Work.divRun (w : Work) (m : BitVector) (ns : BitSeq) : Work :=
  ns.foldl (Work.divStep m) { w with divider := ⟨0, 0⟩ }

/-- R70, R71: `DIV n, m -> Y0 = quotient, Y1 = remainder`, most significant bit of `n` first;
DivisionByZero if `val(m) = 0`, before any bit is processed (R82). -/
def execDiv (s : State) : Host.Outcome State Fault Refusal :=
  s.withBitVector .a fun n => s.withBitVector .b fun m =>
    let t := s.begin .div
    if val m = 0 then .next (t.raise .divisionByZero)
    else
      let u := t.onWork (fun w => w.divRun m (bitsReversed n))
      .next (u.releaseDivider.releaseSubtractor.respond
        (.okTwo (.nat u.work.divider.quotient) (.nat u.work.divider.remainder)))

end Sys2Proof.Machine
end

