-- ==== Sys2Proof/Machine/Encoder.lean ====
section
/-! DEFINITION. bitvector_canonical_encoder: `ENC`, `ENCW`, `DEC`, `BITS`, `BITSR`, `SHL`
(spec/40_bitvector.md). None of them uses a transient register. -/

namespace Sys2Proof.Machine

/-- R41: `ENC n -> Y0 = enc(n)`. -/
def execEnc (s : State) : Host.Outcome State Fault Refusal :=
  s.withNat .a fun n =>
    .next ((s.begin .enc).respond (.okOne (.bitVector (enc n))))

/-- R42: `ENCW n, w`: OutOfRange if `nbytes(n) > w`, before anything is produced, else `enc(n)`. -/
def execEncw (s : State) : Host.Outcome State Fault Refusal :=
  s.withNat .a fun n => s.withNat .b fun w =>
    let t := s.begin .encw
    if w < nbytes n then .next (t.raise .outOfRange)
    else .next (t.respond (.okOne (.bitVector (enc n))))

/-- R43: `DEC v -> Y0 = val(v)`. -/
def execDec (s : State) : Host.Outcome State Fault Refusal :=
  s.withBitVector .a fun v =>
    .next ((s.begin .dec).respond (.okOne (.nat (val v))))

/-- R44: `BITS v -> Y0 = bits(v)`, least significant bit first. -/
def execBits (s : State) : Host.Outcome State Fault Refusal :=
  s.withBitVector .a fun v =>
    .next ((s.begin .bits).respond (.okOne (.bitSeq (bits v))))

/-- R45: `BITSR v -> Y0 = bits_reversed(v)`, most significant bit first. -/
def execBitsr (s : State) : Host.Outcome State Fault Refusal :=
  s.withBitVector .a fun v =>
    .next ((s.begin .bitsr).respond (.okOne (.bitSeq (bitsReversed v))))

/-- R46: `SHL v, amount -> Y0 = enc(val(v) * 2^amount)`. -/
def execShl (s : State) : Host.Outcome State Fault Refusal :=
  s.withBitVector .a fun v => s.withNat .b fun amount =>
    .next ((s.begin .shl).respond (.okOne (.bitVector (shl v amount))))

end Sys2Proof.Machine
end

