-- ==== Sys2Proof/Machine/FullAdder.lean ====
section
/-! DEFINITION. full_adder_1bit: `FA` (spec/41_full_adder.md). -/

namespace Sys2Proof.Machine

/-- R50: `FA a, b, carry_in -> Y0 = sum, Y1 = carry_out`; it writes nothing but its two results. -/
def execFa (s : State) : Host.Outcome State Fault Refusal :=
  s.withBit .a fun a => s.withBit .b fun b => s.withBit .c fun cin =>
    let out := fullAdder a b cin
    .next ((s.begin .fa).respond (.okTwo (.bit out.sum) (.bit out.carryOut)))

end Sys2Proof.Machine
end

