-- ==== Sys2Proof/Machine/Multiplier.lean ====
section
/-! DEFINITION. shift_add_multiplier: `MUL` (spec/44_multiplier.md). -/

namespace Sys2Proof.Machine

/-- R65's assignment on a 1 bit: "replace the accumulator with
`from_integer(add(accumulator, n.shift_left(position)))`", the addition in the Adder's registers. -/
def Work.accumulate (w : Work) (n : BitVector) : Work :=
  let w := w.addRun w.multiplier.acc (shl n w.multiplier.pos)
  { w with multiplier := { w.multiplier with acc := enc w.adder.result } }

/-- One turn of R65's loop, for one bit of `m`; the position advances whether the bit is 0 or 1. -/
def Work.mulStep (n : BitVector) (w : Work) (bit : Bit) : Work :=
  let w := if bit then w.accumulate n else w
  { w with multiplier := { w.multiplier with pos := w.multiplier.pos + 1 } }

/-- R65: the turns for a sequence of bits of `m`, from the accumulator `enc(0)` and position 0. -/
def Work.mulRun (w : Work) (n : BitVector) (ms : BitSeq) : Work :=
  ms.foldl (Work.mulStep n) { w with multiplier := ⟨enc 0, 0⟩ }

/-- R65: `MUL n, m -> Y0 = val(acc)` after all of `m`'s bits, in forward order. -/
def execMul (s : State) : Host.Outcome State Fault Refusal :=
  s.withBitVector .a fun n => s.withBitVector .b fun m =>
    let t := (s.begin .mul).onWork (fun w => w.mulRun n (bits m))
    .next (t.releaseMultiplier.releaseAdder.respond (.okOne (.nat (val t.work.multiplier.acc))))

end Sys2Proof.Machine
end

