-- ==== Sys2Proof/Machine/Subtractor.lean ====
section
/-! DEFINITION. ones_complement_subtractor: `SUB` (spec/43_subtractor.md). -/

namespace Sys2Proof.Machine

/-- R60, R62: `SUB n, m -> Y0`; `A` is the minuend, `B` the subtrahend. Its precondition is not
checked: it always answers OK (R62, R80). -/
def execSub (s : State) : Host.Outcome State Fault Refusal :=
  s.withBitVector .a fun n => s.withBitVector .b fun m =>
    let t := (s.begin .sub).onWork (fun w => w.subRun n m)
    .next (t.releaseSubtractor.respond (.okOne (.nat t.work.subtractor.result)))

end Sys2Proof.Machine
end

