-- ==== Sys2Proof/Machine/Dispatch.lean ====
section
/-! DEFINITION. One arm per operation of spec/30_encoding.md rule R31. -/

namespace Sys2Proof.Machine

def exec (i : Instr) (s : State) : Host.Outcome State Fault Refusal :=
  match i with
  | .enc => Sys2Proof.Machine.execEnc s
  | .dec => Sys2Proof.Machine.execDec s
  | .bits => Sys2Proof.Machine.execBits s
  | .bitsr => Sys2Proof.Machine.execBitsr s
  | .shl => Sys2Proof.Machine.execShl s
  | .fa => Sys2Proof.Machine.execFa s
  | .add => Sys2Proof.Machine.execAdd s
  | .sub => Sys2Proof.Machine.execSub s
  | .mul => Sys2Proof.Machine.execMul s
  | .div => Sys2Proof.Machine.execDiv s
  | .encw => Sys2Proof.Machine.execEncw s

end Sys2Proof.Machine
end

