-- ==== Sys2Proof/Machine/Step.lean ====
section
/-! DEFINITION. One step of the machine: one whole request (spec/20_memory.md rule R25: "each complete
before the next starts"). -/

namespace Sys2Proof.Machine

/-- One step: perform the next operation, refuse the request, or, when the host has requested nothing,
stay `Idle`. -/
def step (s : State) : Host.Outcome State Fault Refusal :=
  match s.nextOperation with
  | .ok (some i) => exec i s
  | .ok none => .next s
  | .error r => .refused r

/-- `s` with the host presenting, ahead of its other requests, the request whose select word is `w`,
every operand zero of the type the operation names, and the unit `Idle` to take it. -/
def State.withFetchWord (s : State) (nbits w : Nat) : State :=
  { s with phase := .idle, requests := zeroRequest (selectOfWord nbits w) :: s.requests }

end Sys2Proof.Machine
end

