-- ==== Sys2Proof/Safety.lean ====
section
/-! DEFINITION. The terms claims use: what it means that a request was answered, which transient
storage an operation may touch, what a canonical encoding is, which results an operation may give,
and what a lawful exchange is (the arithmetic laws of spec/95_test_vectors.md section 1, said without
any circuit). -/

namespace Sys2Proof.Machine

/-- From `s`, whose request on the ports is `r` with `rest` after it, to `t`: the hardware is `Idle`,
`r` is done with, and the host has received `resp` for it (R10, R25, R85, R88). -/
structure Answers (s t : State) (r : Request) (rest : List Request) (resp : Response) : Prop where
  idle : t.phase = .idle
  requests : t.requests = rest
  transcript : t.transcript = s.transcript ++ [⟨r, resp⟩]

/-- No transient register was used: their storage is as it was, which is the model's choice (assumption
3), as is the counter of free values (assumption 19). U7 does not promise it; R50 does of `FA` and R82
of the Divider's registers when `DIV` raises its error. -/
structure KeepsStorage (s t : State) : Prop where
  work : t.work = s.work
  freeCount : t.freeCount = s.freeCount

/-- Only the Adder's transient registers were used (R13). What they hold afterwards is free (U7); that
the others hold what they held is, here and in the three below, the model's choice (assumption 3). -/
structure UsesAdder (s t : State) : Prop where
  subtractor : t.work.subtractor = s.work.subtractor
  multiplier : t.work.multiplier = s.work.multiplier
  divider : t.work.divider = s.work.divider

/-- Only the Subtractor's transient registers were used (R13). -/
structure UsesSubtractor (s t : State) : Prop where
  adder : t.work.adder = s.work.adder
  multiplier : t.work.multiplier = s.work.multiplier
  divider : t.work.divider = s.work.divider

/-- Only the Multiplier's and the Adder's transient registers were used (R14). -/
structure UsesMultiplier (s t : State) : Prop where
  subtractor : t.work.subtractor = s.work.subtractor
  divider : t.work.divider = s.work.divider

/-- Only the Divider's and the Subtractor's transient registers were used (R15). -/
structure UsesDivider (s t : State) : Prop where
  adder : t.work.adder = s.work.adder
  multiplier : t.work.multiplier = s.work.multiplier

/-- R40: `bs` is the canonical encoding of `n`: as many bytes as `n` needs and no more (`nbytes(0) = 1`;
for `n > 0` the least `k ≥ 1` with `n < 256^k`), byte `i` being `floor(n / 256^i) mod 256`. -/
structure EncodesCanonically (n : Nat) (bs : List Byte) : Prop where
  nonempty : 1 ≤ bs.length
  fits : n < 256 ^ bs.length
  least : ∀ k, 1 ≤ k → n < 256 ^ k → bs.length ≤ k
  byte : ∀ j (h : j < bs.length), (bs[j]'h).toNat = n / 256 ^ j % 256

/-- R48: `k` is the bit length of the value `n`: 1 for 0, else the least `k ≥ 1` with `n < 2^k`. -/
def IsBitLength (n k : Nat) : Prop :=
  if n = 0 then k = 1 else 1 ≤ k ∧ n < 2 ^ k ∧ ∀ j, 1 ≤ j → n < 2 ^ j → k ≤ j

/-- R21, R48: `xs` is the forward bit view of the value `n`: `bitlen` bits, least significant first,
position `j` being `bit(n, j) = floor(n / 2^j) mod 2`. -/
structure IsBitView (n : Nat) (xs : BitSeq) : Prop where
  length : IsBitLength n xs.length
  bit : ∀ j (h : j < xs.length), (xs[j]'h).toNat = n / 2 ^ j % 2

/-- R33's table: the types of the results an operation gives with status OK. -/
def resultsConform : Instr → Option Value → Option Value → Prop
  | .enc, y0, y1 => (∃ v, y0 = some (.bitVector v)) ∧ y1 = none
  | .dec, y0, y1 => (∃ n, y0 = some (.nat n)) ∧ y1 = none
  | .bits, y0, y1 => (∃ xs, y0 = some (.bitSeq xs)) ∧ y1 = none
  | .bitsr, y0, y1 => (∃ xs, y0 = some (.bitSeq xs)) ∧ y1 = none
  | .shl, y0, y1 => (∃ v, y0 = some (.bitVector v)) ∧ y1 = none
  | .fa, y0, y1 => (∃ b, y0 = some (.bit b)) ∧ ∃ c, y1 = some (.bit c)
  | .add, y0, y1 => (∃ n, y0 = some (.nat n)) ∧ y1 = none
  | .sub, y0, y1 => (∃ n, y0 = some (.nat n)) ∧ y1 = none
  | .mul, y0, y1 => (∃ n, y0 = some (.nat n)) ∧ y1 = none
  | .div, y0, y1 => (∃ q, y0 = some (.nat q)) ∧ ∃ r, y1 = some (.nat r)
  | .encw, y0, y1 => (∃ v, y0 = some (.bitVector v)) ∧ y1 = none

/-- R33's table: the status values an operation can answer with. -/
def possibleStatuses : Instr → List Status
  | .div => [.ok, .divisionByZero]
  | .encw => [.ok, .outOfRange]
  | .enc | .dec | .bits | .bitsr | .shl | .fa | .add | .sub | .mul => [.ok]

/-- R33, R85: a response has one of the operation's status values, results of the operation's types
when it is OK, and no result otherwise. -/
def ConformsTo (i : Instr) (resp : Response) : Prop :=
  resp.status ∈ possibleStatuses i ∧
    if resp.status = .ok then resultsConform i resp.y0 resp.y1 else resp.y0 = none ∧ resp.y1 = none

/-- What the laws of spec/95_test_vectors.md section 1 (L-1 to L-8) and R42, R46, R52, R62 say of the
response to a request for operation `i` with the operands on `p`, in plain arithmetic. -/
def LawfulAnswer (i : Instr) (p : Ports) (resp : Response) : Prop :=
  match i with
  | .enc => ∃ n v, p.a = .ofNat n ∧ resp = .okOne (.bitVector v) ∧ EncodesCanonically n v.bytes
  | .dec => ∃ v n, p.a = .ofBitVector v ∧ resp = .okOne (.nat n) ∧ EncodesCanonically n v.bytes
  | .bits => ∃ v xs, p.a = .ofBitVector v ∧ resp = .okOne (.bitSeq xs) ∧ IsBitView (val v) xs
  | .bitsr => ∃ v xs, p.a = .ofBitVector v ∧ resp = .okOne (.bitSeq (List.reverse xs)) ∧
      IsBitView (val v) xs
  | .shl => ∃ v k u, p.a = .ofBitVector v ∧ p.b = .ofNat k ∧ resp = .okOne (.bitVector u) ∧
      val u = val v * 2 ^ k
  | .fa => ∃ a b c sum cout, p.a = .ofBit a ∧ p.b = .ofBit b ∧ p.c = .ofBit c ∧
      resp = .okTwo (.bit sum) (.bit cout) ∧
      a.toNat + b.toNat + c.toNat = sum.toNat + 2 * cout.toNat
  | .add => ∃ n m, p.a = .ofBitVector n ∧ p.b = .ofBitVector m ∧
      resp = .okOne (.nat (val n + val m))
  | .sub => ∃ n m d, p.a = .ofBitVector n ∧ p.b = .ofBitVector m ∧ resp = .okOne (.nat d) ∧
      if val m ≤ val n then d + val m = val n else ∃ k, IsBitLength (val m) k ∧ d < 2 ^ k
  | .mul => ∃ n m, p.a = .ofBitVector n ∧ p.b = .ofBitVector m ∧
      resp = .okOne (.nat (val n * val m))
  | .div => ∃ n m, p.a = .ofBitVector n ∧ p.b = .ofBitVector m ∧
      if val m = 0 then resp = .error .divisionByZero
      else ∃ q r, resp = .okTwo (.nat q) (.nat r) ∧ q * val m + r = val n ∧ r < val m
  | .encw => ∃ n w, p.a = .ofNat n ∧ p.b = .ofNat w ∧
      if w = 0 ∨ 256 ^ w ≤ n then resp = .error .outOfRange
      else ∃ v, resp = .okOne (.bitVector v) ∧ EncodesCanonically n v.bytes

/-- An exchange is lawful: its request selects an operation, and its response is what the laws of that
operation say of it. -/
def LawfulExchange (e : Exchange) : Prop :=
  match decode e.request.op with
  | .ok i => LawfulAnswer i e.request.ports e.response
  | .error _ => False

/-- The hardware is `Idle` (R10), and every response it has ever given is lawful. -/
structure Lawful (s : State) : Prop where
  idle : s.phase = .idle
  exchanges : ∀ e ∈ s.transcript, LawfulExchange e

/-- The hardware is `Idle`, and every response it has ever given is the one the function `F` names for
the operation and the operands of its request. -/
structure FollowsFunction (F : Instr → Ports → Response) (s : State) : Prop where
  idle : s.phase = .idle
  exchanges : ∀ e ∈ s.transcript, ∃ i, decode e.request.op = .ok i ∧
    e.response = F i e.request.ports

/-- Two requests for the same operation carry the same values on the ports it uses (R30: the other
ports are ignored). -/
def SameOperands (i : Instr) (p q : Ports) : Prop :=
  ∀ port, i.operandType port ≠ .unused → p.get port = q.get port

end Sys2Proof.Machine
end

