-- ==== Sys2Proof/Certificates/Slice0/Obligations.lean ====
section
/-! DEFINITION. The statements for the provers. Each docstring names the rule of spec/ it formalises
or, for a statement about the model's own choice, the assumption that makes it.

Throughout, `s` is ANY state whose head request is `r` with `rest` after it: no run is assumed, and
`s.phase`, `s.work`, `s.freeCount` and `s.transcript` are arbitrary. `Answers s t r rest resp` says all
that happens to the phase and the host's side; `KeepsStorage` and `Uses...` say which transient
registers are as they were: that an operation leaves the storage it does not use alone is the model's
choice (assumption 3; `freeCount` is the model's own field, assumption 19), and each statement that
holds such a clause says so. The registers an operation does use hold free values afterwards (U7,
assumption 3), of which no statement says anything. The select codes that stand in the statements
about the operations are the spec's own choice (D1). -/

open Sys2Proof Sys2Proof.Machine

/-! ### Encoding -/

/-- R31's table, the words written out bit by bit. The codes are the spec's own choice (D1). -/
def Obligations.SelectCodesNameTheirOperations : Prop :=
  decode 0b0000#4 = .ok .enc ∧ decode 0b0001#4 = .ok .dec ∧ decode 0b0010#4 = .ok .bits ∧
  decode 0b0011#4 = .ok .bitsr ∧ decode 0b0100#4 = .ok .shl ∧ decode 0b0101#4 = .ok .fa ∧
  decode 0b0110#4 = .ok .add ∧ decode 0b0111#4 = .ok .sub ∧ decode 0b1000#4 = .ok .mul ∧
  decode 0b1001#4 = .ok .div ∧ decode 0b1010#4 = .ok .encw

/-- R34: "The select codes 0xB to 0xF (and 0xA when `HAS_ENCW` is false) select no operation." The
decision is the spec's own (D6). -/
def Obligations.ReservedSelectCodesAreInvalid : Prop :=
  (∀ (hasEncw : Bool) (op : BitVec 4), 0xB#4 ≤ op → decodeWith hasEncw op = .error (.invalid op)) ∧
  decodeWith false 0xA#4 = .error (.invalid 0xA#4)

/-- R31, R34: in a build with or without `ENCW`, a code decodes to an operation exactly when it is that
operation's code and the build has the operation. -/
def Obligations.DecodeIsTheInverseOfEncode : Prop :=
  ∀ (hasEncw : Bool) (op : BitVec 4) (i : Instr),
    decodeWith hasEncw op = .ok i ↔ encode i = op ∧ i.existsWith hasEncw = true

/-! ### The step -/

/-- R5, R25: when the request on the ports of an idle unit selects an operation, the step is that
operation; and an operation in flight is what the step carries out. -/
def Obligations.StepRunsTheSelectedOperation : Prop :=
  (∀ (s : State) (r : Request) (rest : List Request) (i : Instr),
    s.phase = .idle → s.requests = r :: rest → decode r.op = .ok i → step s = exec i s) ∧
  (∀ (s : State) (i : Instr), s.phase = .running i → step s = exec i s)

/-- R34: the machine refuses a request whose code selects no operation: it "starts nothing, produces
no response, and marks the run as refused". -/
def Obligations.StepRefusesAReservedSelectCode : Prop :=
  ∀ (s : State) (r : Request) (rest : List Request),
    s.phase = .idle → s.requests = r :: rest → (∀ i, decode r.op ≠ .ok i) →
    step s = .refused (.reservedSelect r.op)

/-- THE MODEL'S CHOICE (assumption 6): an idle unit of which nothing is requested stays as it is. -/
def Obligations.StepWithoutARequestChangesNothing : Prop :=
  ∀ s : State, s.phase = .idle → s.requests = [] → step s = .next s

/-- R34, R35, and the model's placing of an instruction word (assumption 7): a word that decodes to an
operation, presented with zero operands, is performed by the very next step. -/
def Obligations.PresentedWordIsPerformedNext : Prop :=
  ∀ (s : State) (nbits w : Nat) (i : Instr), decodeTableWord nbits w = some i →
    ∃ t, step (s.withFetchWord nbits w) = .next t ∧ exec i (s.withFetchWord nbits w) = .next t ∧
      t.requests = s.requests

/-- R35: a request is performed when every used port carries a value of its type, and otherwise
refused for a port that does not. The treatment of ill-formed operands is the spec's own (D4). -/
def Obligations.ExactlyWellFormedRequestsArePerformed : Prop :=
  ∀ (i : Instr) (s : State),
    (i.operandsWf s.ports = true → ∃ t, exec i s = .next t) ∧
    (i.operandsWf s.ports = false →
      ∃ p, (i.operandType p).admits (s.ports.get p) = false ∧
        exec i s = .refused (.illFormedOperand p))

/-! ### bitvector_canonical_encoder -/

/-- R40, R41: `ENC n` always succeeds with the canonical encoding of `n`.
That no transient register and no `freeCount` is changed is THE MODEL'S CHOICE (assumption 3; the field
`freeCount` is the model's own, assumption 19): U7 does not promise it. -/
def Obligations.EncGivesTheCanonicalEncoding : Prop :=
  encode .enc = 0x0#4 ∧
  (∀ n, EncodesCanonically n (enc n).bytes) ∧
  ∀ (s : State) (r : Request) (rest : List Request) (n : Nat),
    s.requests = r :: rest → r.ports.a = .ofNat n →
    ∃ t, exec .enc s = .next t ∧ Answers s t r rest (.okOne (.bitVector (enc n))) ∧
      KeepsStorage s t

/-- R42, R81: `ENCW n, w` answers OutOfRange with no result exactly when the canonical encoding of
`n` has more than `w` bytes (for `w = 0`, always: C1), and otherwise answers as `ENC`. It is present
only when `HAS_ENCW` is true.
That no transient register and no `freeCount` is changed is THE MODEL'S CHOICE (assumption 3; the field
`freeCount` is the model's own, assumption 19): U7 does not promise it. -/
def Obligations.EncwChecksTheByteCount : Prop :=
  encode .encw = 0xA#4 ∧
  (∀ hasEncw, (∃ op, decodeWith hasEncw op = .ok .encw) ↔ hasEncw = true) ∧
  (∀ n w, w < (enc n).bytes.length ↔ w = 0 ∨ 256 ^ w ≤ n) ∧
  ∀ (s : State) (r : Request) (rest : List Request) (n w : Nat),
    s.requests = r :: rest → r.ports.a = .ofNat n → r.ports.b = .ofNat w →
    ∃ t, exec .encw s = .next t ∧ KeepsStorage s t ∧
      Answers s t r rest
        (if w < (enc n).bytes.length then .error .outOfRange else .okOne (.bitVector (enc n)))

/-- R20, R43: `DEC v` is the sum of `bytes(v)[j] * 256^j`, the exact inverse of `ENC`.
That no transient register and no `freeCount` is changed is THE MODEL'S CHOICE (assumption 3; the field
`freeCount` is the model's own, assumption 19): U7 does not promise it. -/
def Obligations.DecGivesTheValue : Prop :=
  encode .dec = 0x1#4 ∧
  (∀ v : BitVector, val v =
    ∑ j ∈ Finset.range v.bytes.length, (v.bytes.getD j 0#8).toNat * 256 ^ j) ∧
  (∀ n, val (enc n) = n) ∧
  ∀ (s : State) (r : Request) (rest : List Request) (v : BitVector),
    s.requests = r :: rest → r.ports.a = .ofBitVector v →
    ∃ t, exec .dec s = .next t ∧ Answers s t r rest (.okOne (.nat (val v))) ∧ KeepsStorage s t

/-- R44: `BITS v` gives eight bits for every byte but the most significant, of which it gives the
significant bits only, and `[0]` for the value zero.
That no transient register and no `freeCount` is changed is THE MODEL'S CHOICE (assumption 3; the field
`freeCount` is the model's own, assumption 19): U7 does not promise it. -/
def Obligations.BitsGivesTheForwardView : Prop :=
  encode .bits = 0x2#4 ∧
  (∀ v, val v = 0 → bits v = [false]) ∧
  (∀ (v : BitVector) (lower : List Byte) (top : Byte),
    val v ≠ 0 → v.bytes = lower ++ [top] →
    ∃ significant, IsBitView top.toNat significant ∧
      bits v = lower.flatMap (fun b => (List.range 8).map b.toNat.testBit) ++ significant) ∧
  ∀ (s : State) (r : Request) (rest : List Request) (v : BitVector),
    s.requests = r :: rest → r.ports.a = .ofBitVector v →
    ∃ t, exec .bits s = .next t ∧ Answers s t r rest (.okOne (.bitSeq (bits v))) ∧
      KeepsStorage s t

/-- R45: `BITSR v` gives the exact reverse of what `BITS v` gives.
That no transient register and no `freeCount` is changed is THE MODEL'S CHOICE (assumption 3; the field
`freeCount` is the model's own, assumption 19): U7 does not promise it. -/
def Obligations.BitsrGivesTheReverseOfBits : Prop :=
  encode .bitsr = 0x3#4 ∧
  ∀ (s : State) (r : Request) (rest : List Request) (v : BitVector),
    s.requests = r :: rest → r.ports.a = .ofBitVector v →
    ∃ xs t u, exec .bits s = .next u ∧ Answers s u r rest (.okOne (.bitSeq xs)) ∧
      exec .bitsr s = .next t ∧ Answers s t r rest (.okOne (.bitSeq xs.reverse)) ∧ KeepsStorage s t

/-- R46: `SHL v, k` gives the canonical encoding of `val(v) * 2^k`.
That no transient register and no `freeCount` is changed is THE MODEL'S CHOICE (assumption 3; the field
`freeCount` is the model's own, assumption 19): U7 does not promise it. -/
def Obligations.ShlGivesTheShiftedValue : Prop :=
  encode .shl = 0x4#4 ∧
  ∀ (s : State) (r : Request) (rest : List Request) (v : BitVector) (k : Nat),
    s.requests = r :: rest → r.ports.a = .ofBitVector v → r.ports.b = .ofNat k →
    ∃ t, exec .shl s = .next t ∧
      Answers s t r rest (.okOne (.bitVector (enc (val v * 2 ^ k)))) ∧ KeepsStorage s t

/-- R46's corner cases: nothing is shifted out. -/
def Obligations.ShiftLeftGrowsTheBitLength : Prop :=
  ∀ (v : BitVector) (k : Nat),
    shl v 0 = v ∧ shl (enc 0) k = enc 0 ∧ (0 < val v → bitlen (shl v k) = bitlen v + k)

/-- R47, R48: the laws of the block: round trip, canonical form, bit-view length and reversal. The
clause `enc (val v) = v` is not R47's but the spec's own inference, the sentence "Consequences of rule
R47 [derived: from rules R40, R41, R43 and `30_encoding.md` rule R35]" of section 8 of
40_bitvector.md. -/
def Obligations.EncodingLaws : Prop :=
  (∀ n, val (enc n) = n) ∧ (∀ v, enc (val v) = v) ∧
  (enc 0).bytes = [0#8] ∧ (∀ n, 0 < n → ∃ b, (enc n).bytes.getLast? = some b ∧ b ≠ 0#8) ∧
  (∀ v, IsBitLength (val v) (bits v).length) ∧ ∀ v, bitsReversed v = (bits v).reverse

/-- R48: the bit length as a function of the value, and in terms of bytes. -/
def Obligations.BitLengthOfAValue : Prop :=
  (∀ v, IsBitLength (val v) (bitlen v)) ∧
  ∀ (v : BitVector) (lower : List Byte) (top : Byte) (t : Nat),
    v.bytes = lower ++ [top] → IsBitLength top.toNat t →
    bitlen v = 8 * (v.bytes.length - 1) + t

/-- R21: position `p` of the forward view is bit `p` of the value, and the view read bit by bit gives
the value; the reversed view is most significant bit first. -/
def Obligations.ForwardViewIsLeastSignificantFirst : Prop :=
  ∀ v : BitVector,
    (∀ p (h : p < (bits v).length), ((bits v)[p]'h).toNat = val v / 2 ^ p % 2) ∧
    val v = ∑ p ∈ Finset.range (bits v).length, ((bits v).getD p false).toNat * 2 ^ p ∧
    ∀ p (h : p < (bitsReversed v).length),
      ((bitsReversed v)[p]'h).toNat = val v / 2 ^ (bitlen v - 1 - p) % 2

/-! ### full_adder_1bit -/

/-- R50: both equations of the full adder; it reads its three operands and "writes nothing but its two
results". That `freeCount` is unchanged concerns the model's own field (assumption 19). -/
def Obligations.FaGivesSumAndCarry : Prop :=
  encode .fa = 0x5#4 ∧
  ∀ (s : State) (r : Request) (rest : List Request) (a b c : Bit),
    s.requests = r :: rest → r.ports.a = .ofBit a → r.ports.b = .ofBit b → r.ports.c = .ofBit c →
    ∃ t, exec .fa s = .next t ∧
      Answers s t r rest
        (.okTwo (.bit ((a ^^ b) ^^ c)) (.bit ((a && b) || (c && (a ^^ b))))) ∧
      KeepsStorage s t

/-- R52 (derived in the spec): the full adder adds, its sum is the parity and its carry the majority
of its inputs. -/
def Obligations.FaAddsItsInputs : Prop :=
  ∀ (s : State) (r : Request) (rest : List Request) (a b c : Bit),
    s.requests = r :: rest → r.ports.a = .ofBit a → r.ports.b = .ofBit b → r.ports.c = .ofBit c →
    ∃ t sum cout, exec .fa s = .next t ∧ Answers s t r rest (.okTwo (.bit sum) (.bit cout)) ∧
      a.toNat + b.toNat + c.toNat = sum.toNat + 2 * cout.toNat ∧
      sum.toNat = (a.toNat + b.toNat + c.toNat) % 2 ∧
      (cout = true ↔ 2 ≤ a.toNat + b.toNat + c.toNat)

/-! ### ripple_carry_adder -/

/-- R56: `ADD n, m` is exactly `val(n) + val(m)`, of `L` bits or, exactly when the sum reaches `2^L`,
`L + 1`; the code is R55's. That every other block's transient registers are unchanged is THE MODEL'S
CHOICE (assumption 3): U7 does not promise it. -/
def Obligations.AddGivesTheSum : Prop :=
  encode .add = 0x6#4 ∧
  (∀ n m : BitVector, IsBitLength (val n + val m)
    (if 2 ^ max (bitlen n) (bitlen m) ≤ val n + val m
      then max (bitlen n) (bitlen m) + 1 else max (bitlen n) (bitlen m))) ∧
  ∀ (s : State) (r : Request) (rest : List Request) (n m : BitVector),
    s.requests = r :: rest → r.ports.a = .ofBitVector n → r.ports.b = .ofBitVector m →
    ∃ t, exec .add s = .next t ∧ Answers s t r rest (.okOne (.nat (val n + val m))) ∧
      UsesAdder s t

/-- R57: "`add(a, 0) == a.to_integer()`; `add(a, b) == add(b, a)`". -/
def Obligations.AddLaws : Prop :=
  (∀ (s : State) (r : Request) (rest : List Request) (n : BitVector),
    s.requests = r :: rest → r.ports.a = .ofBitVector n → r.ports.b = .ofBitVector (enc 0) →
    ∃ t, exec .add s = .next t ∧ Answers s t r rest (.okOne (.nat (val n)))) ∧
  ∀ (s s' : State) (r r' : Request) (rest : List Request) (n m : BitVector),
    s.requests = r :: rest → r.ports.a = .ofBitVector n → r.ports.b = .ofBitVector m →
    s'.requests = r' :: rest → r'.ports.a = .ofBitVector m → r'.ports.b = .ofBitVector n →
    ∃ resp t t', exec .add s = .next t ∧ Answers s t r rest resp ∧
      exec .add s' = .next t' ∧ Answers s' t' r' rest resp

/-- R13, R55 and the derivation under R56: after `k` positions, result and running carry together are
the sum of the operands' low `k` bits; at the end the carry is 1 exactly when the sum reaches `2^L`. -/
def Obligations.AdderRippleKeepsTheSum : Prop :=
  ∀ n m : BitVector,
    (∀ k, let r := RippleRegs.run id (bits n) (bits m) k (RippleRegs.seeded false)
      r.i = k ∧ r.result < 2 ^ k ∧
      r.result + r.carry.toNat * 2 ^ k = val n % 2 ^ k + val m % 2 ^ k) ∧
    let L := max (bitlen n) (bitlen m)
    (RippleRegs.run id (bits n) (bits m) L (RippleRegs.seeded false)).carry
      = decide (2 ^ L ≤ val n + val m)

/-! ### ones_complement_subtractor -/

/-- R61: `SUB n, m` is exactly `val(n) - val(m)` when `val(n) ≥ val(m)`; the code is R60's. That every
other block's transient registers are unchanged is THE MODEL'S CHOICE (assumption 3): U7 does not
promise it. -/
def Obligations.SubGivesTheDifference : Prop :=
  encode .sub = 0x7#4 ∧
  ∀ (s : State) (r : Request) (rest : List Request) (n m : BitVector),
    s.requests = r :: rest → r.ports.a = .ofBitVector n → r.ports.b = .ofBitVector m →
    val m ≤ val n →
    ∃ d t, exec .sub s = .next t ∧ Answers s t r rest (.okOne (.nat d)) ∧
      d = val n - val m ∧ d + val m = val n ∧ UsesSubtractor s t

/-- R62, D11: when the subtrahend exceeds the minuend, `SUB` raises no error and answers a function of
the two operand values alone, below `2^L`. Which function is a free value (assumption 2), and the
statement says nothing of it. That every other block's transient registers are unchanged is THE
MODEL'S CHOICE (assumption 3): U7 does not promise it. -/
def Obligations.SubUnderflowIsAnOpenBoundedFunction : Prop :=
  ∃ f : Nat → Nat → Nat,
    (∀ n m : BitVector, val n < val m → f (val n) (val m) < 2 ^ max (bitlen n) (bitlen m)) ∧
    ∀ (s : State) (r : Request) (rest : List Request) (n m : BitVector),
      s.requests = r :: rest → r.ports.a = .ofBitVector n → r.ports.b = .ofBitVector m →
      val n < val m →
      ∃ t, exec .sub s = .next t ∧ Answers s t r rest (.okOne (.nat (f (val n) (val m)))) ∧
        UsesSubtractor s t

/-- R63: the final carry is discarded: for every pair of operands the result has at most `L` bits, and
nothing but the result is answered. -/
def Obligations.SubResultFitsTheLongerOperand : Prop :=
  ∀ (s : State) (r : Request) (rest : List Request) (n m : BitVector),
    s.requests = r :: rest → r.ports.a = .ofBitVector n → r.ports.b = .ofBitVector m →
    ∃ d t, exec .sub s = .next t ∧ Answers s t r rest (.okOne (.nat d)) ∧
      d < 2 ^ max (bitlen n) (bitlen m)

/-- R13, R60 and the derivation under R61: after `k` positions, result and running carry together are
the minuend's low bits, plus the complement of the subtrahend's, plus the seed 1; under the
precondition the final carry is always 1. -/
def Obligations.SubtractorRippleAddsTheComplement : Prop :=
  ∀ n m : BitVector,
    (∀ k, let r := RippleRegs.run (fun b => b ^^ true) (bits n) (bits m) k (RippleRegs.seeded true)
      r.i = k ∧ r.result < 2 ^ k ∧
      r.result + r.carry.toNat * 2 ^ k + val m % 2 ^ k = val n % 2 ^ k + 2 ^ k) ∧
    (val m ≤ val n → (subRipple n m).carry = true ∧ (subRipple n m).result = val n - val m)

/-! ### shift_add_multiplier -/

/-- R66: `MUL n, m` is exactly `val(n) * val(m)`, zero operands included; the code is R65's. That the
Subtractor's and the Divider's transient registers are unchanged is THE MODEL'S CHOICE (assumption 3):
U7 does not promise it. -/
def Obligations.MulGivesTheProduct : Prop :=
  encode .mul = 0x8#4 ∧
  ∀ (s : State) (r : Request) (rest : List Request) (n m : BitVector),
    s.requests = r :: rest → r.ports.a = .ofBitVector n → r.ports.b = .ofBitVector m →
    ∃ t, exec .mul s = .next t ∧ Answers s t r rest (.okOne (.nat (val n * val m))) ∧
      UsesMultiplier s t

/-- R14, R65 and the derivation under R66: after `k` bits of `m`, whatever the registers held before,
the position counter is `k` and the accumulator is `val(n)` times the low `k` bits of `m`. -/
def Obligations.MultiplierAccumulatesPartialProducts : Prop :=
  ∀ (w : Work) (n m : BitVector) (k : Nat), k ≤ bitlen m →
    let u := w.mulRun n ((bits m).take k)
    u.multiplier.pos = k ∧ val u.multiplier.acc = val n * (val m % 2 ^ k)

/-! ### restoring_binary_divider -/

/-- R70: `DIV` by zero, which is `[0x00]`, answers DivisionByZero with no result, for every dividend.
R82: no transient register of the Divider is changed. That no other block's is changed either is THE
MODEL'S CHOICE (assumption 3; `freeCount` is the model's own field, assumption 19): U7 does not promise
it. -/
def Obligations.DivByZeroRaisesDivisionByZero : Prop :=
  (∀ m : BitVector, val m = 0 ↔ m.bytes = [0x00#8]) ∧
  ∀ (s : State) (r : Request) (rest : List Request) (n m : BitVector),
    s.requests = r :: rest → r.ports.a = .ofBitVector n → r.ports.b = .ofBitVector m →
    val m = 0 →
    ∃ t, exec .div s = .next t ∧ Answers s t r rest (.error .divisionByZero) ∧ KeepsStorage s t

/-- R74: `DIV n, m` with `val(m) ≠ 0` gives the quotient and remainder; the code is R71's. That the
Adder's and the Multiplier's transient registers are unchanged is THE MODEL'S CHOICE (assumption 3): U7
does not promise it. -/
def Obligations.DivGivesQuotientAndRemainder : Prop :=
  encode .div = 0x9#4 ∧
  ∀ (s : State) (r : Request) (rest : List Request) (n m : BitVector),
    s.requests = r :: rest → r.ports.a = .ofBitVector n → r.ports.b = .ofBitVector m →
    val m ≠ 0 →
    ∃ q rem t, exec .div s = .next t ∧ Answers s t r rest (.okTwo (.nat q) (.nat rem)) ∧
      q * val m + rem = val n ∧ rem < val m ∧ UsesDivider s t

/-- R73: after any bits of a dividend, whatever the registers held before, the remainder is below
`2 * val(m)` before the conditional subtraction of the next bit's step and below `val(m)` after it. -/
def Obligations.DividerStepKeepsTheRemainderSmall : Prop :=
  ∀ (w : Work) (m : BitVector) (consumed : BitSeq) (b : Bit), val m ≠ 0 →
    ((w.divRun m consumed).divShift b).divider.remainder < 2 * val m ∧
    (w.divRun m (consumed ++ [b])).divider.remainder < val m

/-- The derivation under R74: quotient times divisor plus remainder is the number formed by the bits
consumed so far, most significant first. -/
def Obligations.DividerKeepsTheConsumedPart : Prop :=
  ∀ (w : Work) (m : BitVector) (consumed : BitSeq), val m ≠ 0 →
    (w.divRun m consumed).divider.quotient * val m + (w.divRun m consumed).divider.remainder
      = consumed.foldl (fun p b => 2 * p + b.toNat) 0

/-- R76 (derived in the spec): a step's subtraction always meets the precondition of `SUB`, so its
result is the true difference and never the open value, and its ripple has `bitlen(m)` or
`bitlen(m) + 1` positions. -/
def Obligations.DividerNeverUnderflows : Prop :=
  ∀ (w : Work) (m : BitVector) (consumed : BitSeq) (b : Bit), val m ≠ 0 →
    let u := (w.divRun m consumed).divShift b
    val m ≤ u.divider.remainder →
    (u.divSubtract m).divider.remainder = u.divider.remainder - val m ∧
    ((u.divSubtract m).subtractor.i = bitlen m ∨ (u.divSubtract m).subtractor.i = bitlen m + 1)

/-- R97: one full-adder position per bit of the longer operand for `ADD` and `SUB`, one turn per bit
of `m` for `MUL`. -/
def Obligations.StepCounts : Prop :=
  ∀ (w : Work) (n m : BitVector),
    (w.addRun n m).adder.i = max (bitlen n) (bitlen m) ∧
    (w.subRun n m).subtractor.i = max (bitlen n) (bitlen m) ∧
    (w.mulRun n (bits m)).multiplier.pos = bitlen m

/-! ### Errors, purity and order -/

/-- R83: the status codes, which are the spec's own (D3): 0, 1, 2; 3 is never produced. -/
def Obligations.StatusCodesAreZeroOneTwo : Prop :=
  statusCode .ok = 0#2 ∧ statusCode .outOfRange = 1#2 ∧ statusCode .divisionByZero = 2#2 ∧
  ∀ st, statusCode st ≠ 3#2

/-- R33, R80, R85: an operation that is performed answers once, with one of its own status values,
results of its own types when it is OK, and no result otherwise. -/
def Obligations.EveryResponseConformsToItsOperation : Prop :=
  ∀ (i : Instr) (s t : State) (r : Request) (rest : List Request),
    s.requests = r :: rest → exec i s = .next t →
    ∃ resp, Answers s t r rest resp ∧ ConformsTo i resp

/-- R10, R88: whatever was in flight, after a step the hardware is `Idle`. -/
def Obligations.EveryStepEndsIdle : Prop :=
  ∀ s t : State, step s = .next t → t.phase = .idle

/-- R6: "Two requests with equal operands give equal responses, whatever was requested before": the
response depends on the operation and the values on the ports it uses, not on the transient storage,
the free values taken, the transcript, or the other requests. -/
def Obligations.EqualRequestsGiveEqualResponses : Prop :=
  ∀ (s s' : State) (r r' : Request) (rest rest' : List Request) (i : Instr) (t : State),
    s.phase = .idle → s'.phase = .idle → s.requests = r :: rest → s'.requests = r' :: rest' →
    decode r.op = .ok i → decode r'.op = .ok i → SameOperands i r.ports r'.ports →
    step s = .next t →
    ∃ resp t', Answers s t r rest resp ∧ step s' = .next t' ∧ Answers s' t' r' rest' resp

/-- R25 (a): requests are performed in the order requested, each exactly once: a step only moves the
head request, with its response, to the end of the transcript. -/
def Obligations.RequestsArePerformedInOrder : Prop :=
  ∀ s t : State, step s = .next t →
    t.transcript.map Exchange.request ++ t.requests
      = s.transcript.map Exchange.request ++ s.requests ∧
    ∃ new, t.transcript = s.transcript ++ new ∧ new.length = min 1 s.requests.length

/-- R25 (b): the order of two requests never changes the response of either. -/
def Obligations.OrderOfTwoRequestsDoesNotMatter : Prop :=
  ∀ (s s' u t : State) (r q : Request) (rest : List Request),
    s.phase = .idle → s'.phase = .idle →
    s.requests = r :: q :: rest → s'.requests = q :: r :: rest →
    step s = .next u → step u = .next t →
    ∃ x y u' t', t.transcript = s.transcript ++ [⟨r, x⟩, ⟨q, y⟩] ∧
      step s' = .next u' ∧ step u' = .next t' ∧
      t'.transcript = s'.transcript ++ [⟨q, y⟩, ⟨r, x⟩]

/-! ### Reset -/

/-- R19, R90: after reset the hardware is `Idle`; that no request waits and none has been answered is
the model's host side (assumption 6). -/
def Obligations.ResetIsIdle : Prop :=
  State.reset.phase = .idle ∧ State.reset.requests = [] ∧ State.reset.transcript = []

/-- R90: reset applied to any state leaves the hardware `Idle`; an operation in flight is abandoned,
its request produces no response, and what the host holds is kept. The form is the model's
(assumption 8). -/
def Obligations.ResetAbandonsTheOperationInFlight : Prop :=
  ∀ s : State, s.applyReset.phase = .idle ∧ s.applyReset.transcript = s.transcript ∧
    (s.phase = .idle → s.applyReset.requests = s.requests) ∧
    ∀ (i : Instr) (r : Request) (rest : List Request),
      s.phase = .running i → s.requests = r :: rest → s.applyReset.requests = rest

/-! ### The headline -/

/-- The invariant holds at reset. -/
def Obligations.ResetIsLawful : Prop := Lawful State.reset

/-- The headline: from any state in which the unit is idle and every response ever given is lawful, a
step leads to such a state: whatever the host requests, every response that the circuits compute is
the one the laws of spec/95_test_vectors.md section 1 name. -/
def Obligations.StepKeepsEveryResponseLawful : Prop :=
  ∀ s t : State, Lawful s → step s = .next t → Lawful t

/-- R6: "every operation is a pure function of its inputs": there is one function of the operation and
the values on the ports it uses, fixed before any run, such that from any state in which every response
ever given follows it, a step leads to such a state. What the function gives for a subtraction below
zero is a free value (assumption 2), and the statement holds whatever it is. -/
def Obligations.OneFunctionAnswersEveryRequest : Prop :=
  ∃ F : Instr → Ports → Response,
    (∀ i p q, SameOperands i p q → F i p = F i q) ∧
    ∀ s t : State, FollowsFunction F s → step s = .next t → FollowsFunction F t

/-- The invariant of the statement above holds at reset, for every function. -/
def Obligations.ResetFollowsAnyFunction : Prop :=
  ∀ F : Instr → Ports → Response, FollowsFunction F State.reset
end

