-- ==== Sys2Proof/Laws/BitVectorLaws.lean ====
section
/-! SUPPORT. What the BitVector operations give (spec/40_bitvector.md): the value of an encoding and
the encoding of a value, the number of bytes, and the bits of the forward view. -/

namespace Sys2Proof.Machine

/-! ### Encoding and value -/

theorem lowByte_toNat (n : Nat) : (lowByte n).toNat = n % 256 := by simp [lowByte]

/-- With enough turns the loop of R41 emits bytes whose value is the number it was given. -/
theorem valBytes_encBytes (fuel n : Nat) (h : n ≤ fuel) : valBytes (encBytes fuel n) = n := by
  induction fuel generalizing n with
  | zero => simp [encBytes, valBytes, lowByte_toNat]; omega
  | succ fuel ih =>
    by_cases hq : n / 256 = 0
    · simp [encBytes, hq, valBytes, lowByte_toNat]; omega
    · rw [encBytes, if_neg hq, valBytes, ih (n / 256) (by omega), lowByte_toNat]; omega

/-- R47: "for all non-negative integers n, `to_integer(from_integer(n)) == n`". -/
theorem val_enc (n : Nat) : val (enc n) = n := valBytes_encBytes n n le_rfl

theorem valBytes_lt (bs : List Byte) : valBytes bs < 256 ^ bs.length := by
  induction bs with
  | nil => simp [valBytes]
  | cons b bs ih =>
    have := b.isLt
    simp only [valBytes, List.length_cons, Nat.pow_succ]; omega

/-- A byte sequence ending in a byte other than 0 has at least the value of its last place. -/
theorem pow_le_valBytes (bs : List Byte) (b : Byte) (h : bs.getLast? = some b) (hb : b ≠ 0#8) :
    256 ^ (bs.length - 1) ≤ valBytes bs := by
  induction bs with
  | nil => simp at h
  | cons c bs ih =>
    rcases List.eq_nil_or_concat bs with rfl | ⟨_, _, rfl⟩
    · simp at h; subst h
      have : c.toNat ≠ 0 := fun h0 => hb (BitVec.eq_of_toNat_eq (by simpa using h0))
      simp [valBytes]; omega
    · rw [List.getLast?_cons_of_ne_nil (by simp)] at h
      have := ih h
      simp only [valBytes, List.length_cons, List.concat_eq_append, List.length_append,
        List.length_nil, Nat.add_sub_cancel, zero_add, Nat.pow_succ] at this ⊢
      omega

/-- R11: a BitVector has at least one byte. -/
theorem bytes_length_pos (v : BitVector) : 0 < v.bytes.length := by
  have h := v.canonical
  rcases hb : v.bytes with _ | ⟨b, bs⟩
  · simp [hb, canonicalBytes] at h
  · simp

/-- R11: a BitVector is one byte, or its last byte is not 0. -/
theorem bytes_canonical_cases (v : BitVector) :
    v.bytes.length = 1 ∨ ∃ b, v.bytes.getLast? = some b ∧ b ≠ 0#8 := by
  have h := v.canonical
  simp only [canonicalBytes, Bool.or_eq_true, beq_iff_eq] at h
  rcases h with h | h
  · exact .inl h
  · obtain ⟨b, hb, hne⟩ := Option.any_eq_true _ _ |>.mp h
    exact .inr ⟨b, hb, by simpa using hne⟩

/-- Equal lengths and equal values make equal byte sequences. -/
theorem valBytes_inj_of_length (as bs : List Byte) (hl : as.length = bs.length)
    (h : valBytes as = valBytes bs) : as = bs := by
  induction as generalizing bs with
  | nil => simpa using hl.symm
  | cons a as ih =>
    cases bs with
    | nil => simp at hl
    | cons b bs =>
      have ha := a.isLt
      have hb := b.isLt
      simp only [valBytes] at h
      have h1 : a.toNat = b.toNat := by omega
      rw [BitVec.eq_of_toNat_eq h1, ih bs (by simpa using hl) (by omega)]

/-- R40: a canonical byte sequence has as few bytes as its value allows. -/
theorem bytes_length_le_of_val_lt (v : BitVector) (k : Nat) (hk : 1 ≤ k)
    (h : val v < 256 ^ k) : v.bytes.length ≤ k := by
  rcases bytes_canonical_cases v with h1 | ⟨b, hb, hne⟩
  · omega
  · have := pow_le_valBytes _ _ hb hne
    by_contra hlt
    have : 256 ^ k ≤ 256 ^ (v.bytes.length - 1) := Nat.pow_le_pow_right (by omega) (by omega)
    exact absurd h (by unfold val; omega)

/-- R48: BitVectors of equal value are equal. -/
theorem eq_of_val_eq {v u : BitVector} (h : val v = val u) : v = u := by
  have hv := bytes_length_le_of_val_lt v _ (bytes_length_pos u) (h ▸ valBytes_lt u.bytes)
  have hu := bytes_length_le_of_val_lt u _ (bytes_length_pos v) (h ▸ valBytes_lt v.bytes)
  have := valBytes_inj_of_length _ _ (le_antisymm hv hu) h
  cases v; cases u; simp_all

/-- R48: "`enc(val(v)) = v` for every BitVector `v`". -/
theorem enc_val (v : BitVector) : enc (val v) = v := eq_of_val_eq (val_enc _)

theorem val_zeroBitVector : val zeroBitVector = 0 := rfl

/-- R42: the byte count exceeds `w` exactly when the source's gloss holds, or `w` is 0 (C1). -/
theorem lt_nbytes_iff (n w : Nat) : w < nbytes n ↔ w = 0 ∨ 256 ^ w ≤ n := by
  constructor
  · intro h
    by_contra hc
    rw [not_or, not_le] at hc
    have := bytes_length_le_of_val_lt (enc n) w (by omega) (by rw [val_enc]; exact hc.2)
    unfold nbytes at h; omega
  · rintro (rfl | h)
    · exact bytes_length_pos (enc n)
    · by_contra hc
      have h1 := valBytes_lt (enc n).bytes
      have h2 : 256 ^ (enc n).bytes.length ≤ 256 ^ w :=
        Nat.pow_le_pow_right (by omega) (by unfold nbytes at hc; omega)
      have h3 : valBytes (enc n).bytes = n := val_enc n
      omega

/-! ### The forward bit view -/

/-- The value of a bit sequence, least significant bit first (R21). -/
def bitsVal : BitSeq → Nat
  | [] => 0
  | b :: bs => b.toNat + 2 * bitsVal bs

theorem bitsVal_append (xs ys : BitSeq) :
    bitsVal (xs ++ ys) = bitsVal xs + 2 ^ xs.length * bitsVal ys := by
  induction xs with
  | nil => simp [bitsVal]
  | cons x xs ih => simp only [List.cons_append, bitsVal, ih, List.length_cons, pow_succ]; ring

theorem bitsVal_lt (xs : BitSeq) : bitsVal xs < 2 ^ xs.length := by
  induction xs with
  | nil => simp [bitsVal]
  | cons x xs ih =>
    have := x.toNat_le
    simp only [bitsVal, List.length_cons, pow_succ]; omega

theorem byteBits_length (b : Byte) : (byteBits b).length = 8 := by simp [byteBits]

theorem bitsVal_byteBits (b : Byte) : bitsVal (byteBits b) = b.toNat := by
  revert b; decide

theorem bitsVal_significantBits (fuel n : Nat) (h : n < 2 ^ fuel) :
    bitsVal (significantBits fuel n) = n := by
  induction fuel generalizing n with
  | zero => simp at h; simp [significantBits, bitsVal, h]
  | succ fuel ih =>
    by_cases h0 : n = 0
    · simp [significantBits, h0, bitsVal]
    · rw [significantBits, if_neg h0, bitsVal, ih (n / 2) (by rw [pow_succ] at h; omega)]
      rcases Nat.mod_two_eq_zero_or_one n with hm | hm <;> simp [hm] <;> omega

/-- "stop once no remaining bits are set": the significant bits of a number other than 0 end in 1. -/
theorem significantBits_getLast (fuel n : Nat) (h : n < 2 ^ fuel) (h0 : n ≠ 0) :
    (significantBits fuel n).getLast? = some true := by
  induction fuel generalizing n with
  | zero => simp at h; omega
  | succ fuel ih =>
    rw [significantBits, if_neg h0]
    by_cases hq : n / 2 = 0
    · have : n = 1 := by omega
      subst this
      cases fuel <;> simp [significantBits]
    · have hl := ih (n / 2) (by rw [pow_succ] at h; omega) hq
      rw [List.getLast?_cons_of_ne_nil (by rintro he; simp [he] at hl)]
      exact hl

theorem bitsOfBytes_cons {bs : List Byte} (h : bs ≠ []) (b : Byte) :
    bitsOfBytes (b :: bs) = byteBits b ++ bitsOfBytes bs := by
  cases bs with
  | nil => exact absurd rfl h
  | cons c bs => rfl

theorem bitsVal_bitsOfBytes (bs : List Byte) : bitsVal (bitsOfBytes bs) = valBytes bs := by
  induction bs with
  | nil => rfl
  | cons b bs ih =>
    by_cases h : bs = []
    · subst h; simpa [bitsOfBytes, valBytes] using bitsVal_significantBits 8 b.toNat b.isLt
    · rw [bitsOfBytes_cons h, bitsVal_append, bitsVal_byteBits, byteBits_length, ih, valBytes]
      norm_num

theorem bitsOfBytes_getLast (bs : List Byte) (b : Byte) (h : bs.getLast? = some b) (hb : b ≠ 0#8) :
    (bitsOfBytes bs).getLast? = some true := by
  induction bs with
  | nil => simp at h
  | cons c bs ih =>
    by_cases hn : bs = []
    · subst hn
      simp only [List.getLast?_singleton, Option.some.injEq] at h; subst h
      exact significantBits_getLast 8 _ c.isLt
        (fun h0 => hb (BitVec.eq_of_toNat_eq (by simpa using h0)))
    · rw [List.getLast?_cons_of_ne_nil hn] at h
      rw [bitsOfBytes_cons hn, List.getLast?_append, ih h]; rfl

/-- R48: `val(v)` is the sum of `bits(v)[p] * 2^p`. -/
theorem bitsVal_bits (v : BitVector) : bitsVal (bits v) = val v := by
  unfold bits
  split_ifs with h
  · simp [bitsVal, h]
  · exact bitsVal_bitsOfBytes v.bytes

/-- R48: a BitVector's value is below `2^bitlen`. -/
theorem val_lt_two_pow_bitlen (v : BitVector) : val v < 2 ^ bitlen v :=
  bitsVal_bits v ▸ bitsVal_lt (bits v)

/-- R44: for a value other than 0 the last bit of the view is 1. -/
theorem bits_getLast (v : BitVector) (h : val v ≠ 0) : (bits v).getLast? = some true := by
  rw [bits, if_neg h]
  rcases bytes_canonical_cases v with h1 | ⟨b, hb, hne⟩
  · obtain ⟨b, hb⟩ := List.length_eq_one_iff.mp h1
    refine bitsOfBytes_getLast _ b (by simp [hb]) fun h0 => h ?_
    simp [val, hb, valBytes, h0]
  · exact bitsOfBytes_getLast _ b hb hne

theorem two_pow_le_bitsVal (xs : BitSeq) (h : xs.getLast? = some true) :
    2 ^ (xs.length - 1) ≤ bitsVal xs := by
  obtain ⟨ys, rfl⟩ := List.getLast?_eq_some_iff.mp h
  simp [bitsVal_append, bitsVal]

/-- R48: a value other than 0 has its top bit set. -/
theorem two_pow_le_val (v : BitVector) (h : val v ≠ 0) : 2 ^ (bitlen v - 1) ≤ val v := by
  have := two_pow_le_bitsVal _ (bits_getLast v h)
  rwa [bitsVal_bits] at this

/-- R44: the view is never empty. -/
theorem bitlen_pos (v : BitVector) : 0 < bitlen v := by
  by_cases h : val v = 0
  · simp [bitlen, bits, h]
  · refine List.length_pos_of_ne_nil fun he => ?_
    have := bits_getLast v h
    simp [he] at this

/-- R55: a missing bit is 0, so bit `i` of a sequence is bit `i` of its value. -/
theorem bitAt_eq_testBit (xs : BitSeq) (i : Nat) : bitAt xs i = (bitsVal xs).testBit i := by
  induction xs generalizing i with
  | nil => simp [bitAt, bitsVal]
  | cons x xs ih =>
    cases i with
    | zero => cases x <;> simp [bitAt, bitsVal, Nat.testBit_zero, Nat.add_mod]
    | succ i =>
      have hd : (x.toNat + 2 * bitsVal xs) / 2 = bitsVal xs := by cases x <;> (simp; try omega)
      rw [bitsVal, Nat.testBit_succ, hd, ← ih i]; simp [bitAt]

/-- R21: `bits(v)[p] = bit(val(v), p)`, with a missing bit 0. -/
theorem bitAt_bits (v : BitVector) (i : Nat) : bitAt (bits v) i = (val v).testBit i := by
  rw [bitAt_eq_testBit, bitsVal_bits]

end Sys2Proof.Machine
end

