-- ==== Sys2Proof/Laws/Operands.lean ====
section
/-! SUPPORT. What reading a port gives (spec/30_encoding.md rule R35), and that the readers accept
exactly what `OperandType.admits` admits. -/

namespace Sys2Proof.Machine

@[simp] theorem asNat_ofNat (n : Nat) : asNat (.ofNat n) = some n := rfl

@[simp] theorem asBit_ofBit (b : Bit) : asBit (.ofBit b) = some b := by cases b <;> rfl

@[simp] theorem asBitVector_ofBitVector (v : BitVector) : asBitVector (.ofBitVector v) = some v := by
  simp [asBitVector, PortValue.ofBitVector, v.canonical]

/-- A port that reads as a Nat carries it. -/
theorem asNat_eq_some {x : PortValue} {n : Nat} : asNat x = some n ↔ x = .ofNat n := by
  constructor
  · intro h
    cases x with
    | integer z => cases z <;> simp_all [asNat, PortValue.ofNat]
    | nothing | bytes _ | bitSeq _ => simp [asNat] at h
  · rintro rfl; rfl

/-- A port that reads as a Bit carries it. -/
theorem asBit_eq_some {x : PortValue} {b : Bit} : asBit x = some b ↔ x = .ofBit b := by
  constructor
  · intro h
    cases x with
    | integer z =>
      simp only [asBit] at h
      split_ifs at h with h0 h1
      · cases h; subst h0; rfl
      · cases h; subst h1; rfl
    | nothing | bytes _ | bitSeq _ => simp [asBit] at h
  · rintro rfl; exact asBit_ofBit b

/-- A port that reads as a BitVector carries its bytes. -/
theorem asBitVector_eq_some {x : PortValue} {v : BitVector} :
    asBitVector x = some v ↔ x = .ofBitVector v := by
  constructor
  · intro h
    cases x with
    | bytes bs =>
      simp only [asBitVector] at h
      split_ifs at h with hc
      cases h; rfl
    | nothing | integer _ | bitSeq _ => simp [asBitVector] at h
  · rintro rfl; exact asBitVector_ofBitVector v

@[simp] theorem admits_unused (x : PortValue) : OperandType.unused.admits x = true := by
  cases x <;> rfl

/-- R35: the Nat reader accepts what R35 admits. -/
theorem admits_nat_iff (x : PortValue) :
    OperandType.nat.admits x = true ↔ ∃ n, asNat x = some n := by
  cases x with
  | integer z => cases z <;> simp [OperandType.admits, asNat]
  | nothing | bytes _ | bitSeq _ => simp [OperandType.admits, asNat]

/-- R35: the Bit reader accepts what R35 admits. -/
theorem admits_bit_iff (x : PortValue) :
    OperandType.bit.admits x = true ↔ ∃ b, asBit x = some b := by
  cases x with
  | integer z =>
    by_cases h0 : z = 0
    · simp [OperandType.admits, asBit, h0]
    · by_cases h1 : z = 1 <;> simp [OperandType.admits, asBit, h0, h1]
  | nothing | bytes _ | bitSeq _ => simp [OperandType.admits, asBit]

/-- R35: the BitVector reader accepts what R35 admits. -/
theorem admits_bitVector_iff (x : PortValue) :
    OperandType.bitVector.admits x = true ↔ ∃ v, asBitVector x = some v := by
  cases x with
  | bytes bs => by_cases h : canonicalBytes bs = true <;> simp [OperandType.admits, asBitVector, h]
  | nothing | integer _ | bitSeq _ => simp [OperandType.admits, asBitVector]

/-- All that reading a port as a Nat can do: the port carries one, is admitted, and the rest goes on
with it; or it does not, and the request is refused for that port. -/
theorem withNat_cases (s : State) (p : Port) :
    (∃ n, s.ports.get p = .ofNat n ∧ OperandType.nat.admits (s.ports.get p) = true ∧
      ∀ k, s.withNat p k = k n) ∨
    (OperandType.nat.admits (s.ports.get p) = false ∧
      ∀ k, s.withNat p k = .refused (.illFormedOperand p)) := by
  by_cases h : OperandType.nat.admits (s.ports.get p) = true
  · obtain ⟨n, hn⟩ := (admits_nat_iff _).mp h
    exact .inl ⟨n, asNat_eq_some.mp hn, h, fun k => by simp [State.withNat, hn]⟩
  · refine .inr ⟨by simpa using h, fun k => ?_⟩
    unfold State.withNat
    split
    · next n hn => exact absurd ((admits_nat_iff _).mpr ⟨n, hn⟩) h
    · rfl

theorem withNat_of_ports {s : State} {p : Port} {n : Nat}
    (h : s.ports.get p = .ofNat n) (k : Nat → Host.Outcome State Fault Refusal) :
    s.withNat p k = k n := by
  simp [State.withNat, h]

/-- Going on after a Nat operand: it was there, and the rest went on with it. -/
theorem withNat_next {s : State} {p : Port} {t : State}
    {k : Nat → Host.Outcome State Fault Refusal} (h : s.withNat p k = .next t) :
    ∃ n, s.ports.get p = .ofNat n ∧ k n = .next t := by
  rcases withNat_cases s p with ⟨n, hp, -, hk⟩ | ⟨-, hk⟩
  · exact ⟨n, hp, hk k ▸ h⟩
  · simp [hk] at h

/-- All that reading a port as a Bit can do: the port carries one, is admitted, and the rest goes on
with it; or it does not, and the request is refused for that port. -/
theorem withBit_cases (s : State) (p : Port) :
    (∃ b, s.ports.get p = .ofBit b ∧ OperandType.bit.admits (s.ports.get p) = true ∧
      ∀ k, s.withBit p k = k b) ∨
    (OperandType.bit.admits (s.ports.get p) = false ∧
      ∀ k, s.withBit p k = .refused (.illFormedOperand p)) := by
  by_cases h : OperandType.bit.admits (s.ports.get p) = true
  · obtain ⟨b, hb⟩ := (admits_bit_iff _).mp h
    exact .inl ⟨b, asBit_eq_some.mp hb, h, fun k => by simp [State.withBit, hb]⟩
  · refine .inr ⟨by simpa using h, fun k => ?_⟩
    unfold State.withBit
    split
    · next b hb => exact absurd ((admits_bit_iff _).mpr ⟨b, hb⟩) h
    · rfl

theorem withBit_of_ports {s : State} {p : Port} {b : Bit}
    (h : s.ports.get p = .ofBit b) (k : Bit → Host.Outcome State Fault Refusal) :
    s.withBit p k = k b := by
  simp [State.withBit, h]

/-- Going on after a Bit operand: it was there, and the rest went on with it. -/
theorem withBit_next {s : State} {p : Port} {t : State}
    {k : Bit → Host.Outcome State Fault Refusal} (h : s.withBit p k = .next t) :
    ∃ b, s.ports.get p = .ofBit b ∧ k b = .next t := by
  rcases withBit_cases s p with ⟨b, hp, -, hk⟩ | ⟨-, hk⟩
  · exact ⟨b, hp, hk k ▸ h⟩
  · simp [hk] at h

/-- All that reading a port as a BitVector can do: the port carries one, is admitted, and the rest goes on
with it; or it does not, and the request is refused for that port. -/
theorem withBitVector_cases (s : State) (p : Port) :
    (∃ v, s.ports.get p = .ofBitVector v ∧ OperandType.bitVector.admits (s.ports.get p) = true ∧
      ∀ k, s.withBitVector p k = k v) ∨
    (OperandType.bitVector.admits (s.ports.get p) = false ∧
      ∀ k, s.withBitVector p k = .refused (.illFormedOperand p)) := by
  by_cases h : OperandType.bitVector.admits (s.ports.get p) = true
  · obtain ⟨v, hv⟩ := (admits_bitVector_iff _).mp h
    exact .inl ⟨v, asBitVector_eq_some.mp hv, h, fun k => by simp [State.withBitVector, hv]⟩
  · refine .inr ⟨by simpa using h, fun k => ?_⟩
    unfold State.withBitVector
    split
    · next v hv => exact absurd ((admits_bitVector_iff _).mpr ⟨v, hv⟩) h
    · rfl

theorem withBitVector_of_ports {s : State} {p : Port} {v : BitVector}
    (h : s.ports.get p = .ofBitVector v) (k : BitVector → Host.Outcome State Fault Refusal) :
    s.withBitVector p k = k v := by
  simp [State.withBitVector, h]

/-- Going on after a BitVector operand: it was there, and the rest went on with it. -/
theorem withBitVector_next {s : State} {p : Port} {t : State}
    {k : BitVector → Host.Outcome State Fault Refusal} (h : s.withBitVector p k = .next t) :
    ∃ v, s.ports.get p = .ofBitVector v ∧ k v = .next t := by
  rcases withBitVector_cases s p with ⟨v, hp, -, hk⟩ | ⟨-, hk⟩
  · exact ⟨v, hp, hk k ▸ h⟩
  · simp [hk] at h

end Sys2Proof.Machine
end

