-- ==== Sys2Proof/Laws/PerInstr.lean ====
section
/-! SUPPORT. One lemma per operation: its select code (spec/30_encoding.md rule R31) decodes to it in
every build that has it. -/

namespace Sys2Proof.Laws

/-- The select code of `i` decodes to `i` in a build that has `i`, with or without `ENCW`. -/
def RoundTrip.Statement (i : Instr) : Prop :=
  ∀ hasEncw : Bool, i.existsWith hasEncw = true → decodeWith hasEncw (encode i) = .ok i

theorem RoundTrip.enc : RoundTrip.Statement .enc := by unfold RoundTrip.Statement; decide
theorem RoundTrip.dec : RoundTrip.Statement .dec := by unfold RoundTrip.Statement; decide
theorem RoundTrip.bits : RoundTrip.Statement .bits := by unfold RoundTrip.Statement; decide
theorem RoundTrip.bitsr : RoundTrip.Statement .bitsr := by unfold RoundTrip.Statement; decide
theorem RoundTrip.shl : RoundTrip.Statement .shl := by unfold RoundTrip.Statement; decide
theorem RoundTrip.fa : RoundTrip.Statement .fa := by unfold RoundTrip.Statement; decide
theorem RoundTrip.add : RoundTrip.Statement .add := by unfold RoundTrip.Statement; decide
theorem RoundTrip.sub : RoundTrip.Statement .sub := by unfold RoundTrip.Statement; decide
theorem RoundTrip.mul : RoundTrip.Statement .mul := by unfold RoundTrip.Statement; decide
theorem RoundTrip.div : RoundTrip.Statement .div := by unfold RoundTrip.Statement; decide
theorem RoundTrip.encw : RoundTrip.Statement .encw := by unfold RoundTrip.Statement; decide

end Sys2Proof.Laws
end

