-- ==== Sys2Proof/Laws/Ripple.lean ====
section
/-! SUPPORT. What a ripple of the full adder leaves in its registers (spec/42_adder.md,
spec/43_subtractor.md), and so what the shared operations `Work.addRun` and `Work.subRun` give. -/

namespace Sys2Proof.Machine

/-- R52: `a + b + cin = sum + 2 * carry_out`. -/
theorem fullAdder_arith (a b cin : Bit) :
    (fullAdder a b cin).sum.toNat + 2 * (fullAdder a b cin).carryOut.toNat
      = a.toNat + b.toNat + cin.toNat := by
  cases a <;> cases b <;> cases cin <;> rfl

/-- The sum of `k` bits at their positions from position `i` on. -/
def bitSum (g : Nat → Bit) (i : Nat) : Nat → Nat
  | 0 => 0
  | k + 1 => (g i).toNat * 2 ^ i + bitSum g (i + 1) k

/-- One position keeps result and carry together equal to what was summed, one position further. -/
theorem RippleRegs.feed_arith (r : RippleRegs) (a b : Bit) :
    (r.feed a b).result + (r.feed a b).carry.toNat * 2 ^ (r.feed a b).i
      = r.result + r.carry.toNat * 2 ^ r.i + a.toNat * 2 ^ r.i + b.toNat * 2 ^ r.i := by
  have h := fullAdder_arith a b r.carry
  simp only [RippleRegs.feed, pow_succ]
  linear_combination 2 ^ r.i * h

/-- `k` positions: the position reached, and result and carry together. -/
theorem RippleRegs.run_arith (f : Bit → Bit) (xs ys : BitSeq) (k : Nat) (r : RippleRegs) :
    (r.run f xs ys k).i = r.i + k ∧
      (r.run f xs ys k).result + (r.run f xs ys k).carry.toNat * 2 ^ (r.i + k)
        = r.result + r.carry.toNat * 2 ^ r.i
          + bitSum (bitAt xs) r.i k + bitSum (fun j => f (bitAt ys j)) r.i k := by
  induction k generalizing r with
  | zero => simp [RippleRegs.run, bitSum]
  | succ k ih =>
    obtain ⟨h1, h2⟩ := ih (r.feed (bitAt xs r.i) (f (bitAt ys r.i)))
    have h3 := r.feed_arith (bitAt xs r.i) (f (bitAt ys r.i))
    have hi : (r.feed (bitAt xs r.i) (f (bitAt ys r.i))).i = r.i + 1 := rfl
    have hk : r.i + 1 + k = r.i + (k + 1) := by omega
    rw [hi, hk] at h1 h2
    refine ⟨h1, ?_⟩
    simp only [RippleRegs.run, bitSum]
    rw [hi] at h3
    omega

/-- Bits summed from position 0 give the value's low bits. -/
theorem bitSum_testBit (x : Nat) (i k : Nat) :
    bitSum x.testBit i k = 2 ^ i * (x / 2 ^ i % 2 ^ k) := by
  induction k generalizing i with
  | zero => simp [bitSum, Nat.mod_one]
  | succ k ih =>
    rw [bitSum, ih, Nat.pow_succ 2 i, Nat.pow_succ 2 k, Nat.mul_comm (2 ^ k) 2, ← Nat.div_div_eq_div_mul,
      Nat.mod_mul, Nat.testBit_eq_decide_div_mod_eq]
    rcases Nat.mod_two_eq_zero_or_one (x / 2 ^ i) with h | h <;> simp [h] <;> ring

/-- Complemented bits sum to what is missing from all ones. -/
theorem bitSum_not (g : Nat → Bit) (i k : Nat) :
    bitSum (fun j => !g j) i k + bitSum g i k + 2 ^ i = 2 ^ (i + k) := by
  induction k generalizing i with
  | zero => simp [bitSum]
  | succ k ih =>
    have := ih (i + 1)
    have hk : i + 1 + k = i + (k + 1) := by omega
    rw [hk, pow_succ] at this
    simp only [bitSum]
    cases g i <;> simp <;> omega

theorem bitSum_bits (v : BitVector) (k : Nat) (h : bitlen v ≤ k) :
    bitSum (bitAt (bits v)) 0 k = val v := by
  have hg : bitAt (bits v) = (val v).testBit := funext (bitAt_bits v)
  have hlt : val v < 2 ^ k :=
    lt_of_lt_of_le (val_lt_two_pow_bitlen v) (Nat.pow_le_pow_right (by omega) h)
  rw [hg, bitSum_testBit]
  simp [Nat.mod_eq_of_lt hlt]

/-- R56: the Adder leaves exactly `val(n) + val(m)` in its result register. -/
theorem addRun_result (w : Work) (n m : BitVector) :
    (w.addRun n m).adder.result = val n + val m := by
  obtain ⟨h1, h2⟩ := RippleRegs.run_arith id (bits n) (bits m)
    (rippleLength (bits n) (bits m)) (RippleRegs.seeded false)
  have hn := bitSum_bits n (rippleLength (bits n) (bits m)) (le_max_left _ _)
  have hm : bitSum (fun j => bitAt (bits m) j) 0 (rippleLength (bits n) (bits m)) = val m :=
    bitSum_bits m _ (le_max_right _ _)
  simp only [RippleRegs.seeded, id] at h1 h2
  simp only [Work.addRun, RippleRegs.appendCarry, RippleRegs.seeded, h1]
  simp only [zero_add, Bool.toNat_false, zero_mul] at h2 ⊢
  omega

/-- The sum bits stay below the position reached (R63: "never has more than `L` significant bits"). -/
theorem RippleRegs.run_result_lt (f : Bit → Bit) (xs ys : BitSeq) (k : Nat) (r : RippleRegs)
    (h : r.result < 2 ^ r.i) : (r.run f xs ys k).result < 2 ^ (r.i + k) := by
  induction k generalizing r with
  | zero => exact h
  | succ k ih =>
    have hk : r.i + (k + 1) = (r.feed (bitAt xs r.i) (f (bitAt ys r.i))).i + k := by
      simp only [RippleRegs.feed]; omega
    rw [hk]
    refine ih _ ?_
    have := Nat.mul_le_mul_right (2 ^ r.i)
      (Bool.toNat_le (fullAdder (bitAt xs r.i) (f (bitAt ys r.i)) r.carry).sum)
    simp only [RippleRegs.feed, pow_succ]
    omega

/-- R61: the low bits that the Subtractor's ripple leaves in its result register are
`val(n) - val(m)` when the subtrahend does not exceed the minuend. -/
theorem subRipple_result (n m : BitVector) (h : val m ≤ val n) :
    (subRipple n m).result = val n - val m := by
  obtain ⟨-, h2⟩ := RippleRegs.run_arith (fun b => b ^^ true) (bits n) (bits m)
    (rippleLength (bits n) (bits m)) (RippleRegs.seeded true)
  have hn := bitSum_bits n (rippleLength (bits n) (bits m)) (le_max_left _ _)
  have hm := bitSum_bits m (rippleLength (bits n) (bits m)) (le_max_right _ _)
  have hc := bitSum_not (bitAt (bits m)) 0 (rippleLength (bits n) (bits m))
  have hlt := RippleRegs.run_result_lt (fun b => b ^^ true) (bits n) (bits m)
    (rippleLength (bits n) (bits m)) (RippleRegs.seeded true) (by simp [RippleRegs.seeded])
  have hnl : val n < 2 ^ rippleLength (bits n) (bits m) :=
    lt_of_lt_of_le (val_lt_two_pow_bitlen n) (Nat.pow_le_pow_right (by omega) (le_max_left _ _))
  simp only [RippleRegs.seeded, Bool.toNat_true, zero_add, pow_zero, one_mul, Bool.xor_true]
    at h2 hlt hc
  simp only [subRipple, RippleRegs.seeded, Bool.xor_true]
  rw [hm] at hc
  rw [hn] at h2
  generalize (RippleRegs.run (fun b => !b) (bits n) (bits m)
    (rippleLength (bits n) (bits m)) ⟨true, 0, 0⟩) = r at h2 hlt ⊢
  cases hr : r.carry <;> simp only [hr, Bool.toNat_true, Bool.toNat_false, zero_mul, one_mul] at h2 <;> omega

/-- R61, R62: what the Subtractor leaves in its result register. -/
theorem subRun_result (w : Work) (n m : BitVector) :
    (w.subRun n m).subtractor.result
      = if val n < val m then subUnderflow (val n) (val m) else val n - val m := by
  simp only [Work.subRun]
  split_ifs with h
  · rfl
  · exact subRipple_result n m (by omega)

/-- R62: the open value is below `2 ^ L`. -/
theorem subUnderflow_lt (n m : BitVector) :
    subUnderflow (val n) (val m) < 2 ^ max (bitlen n) (bitlen m) := by
  simp only [subUnderflow, enc_val]
  exact Nat.mod_lt _ (by positivity)

end Sys2Proof.Machine
end

