-- ==== Sys2Proof/Laws/State.lean ====
section
/-! SUPPORT. One lemma per field per update of the state, so that no later proof unfolds a record
update. -/

namespace Sys2Proof.Machine

variable (s : State)

@[simp] theorem State.begin_phase (i : Instr) :
    (s.begin i).phase = .running i := rfl

@[simp] theorem State.begin_work (i : Instr) :
    (s.begin i).work = s.work := rfl

@[simp] theorem State.begin_freeCount (i : Instr) :
    (s.begin i).freeCount = s.freeCount := rfl

@[simp] theorem State.begin_requests (i : Instr) :
    (s.begin i).requests = s.requests := rfl

@[simp] theorem State.begin_transcript (i : Instr) :
    (s.begin i).transcript = s.transcript := rfl

@[simp] theorem State.onWork_phase (f : Work → Work) :
    (s.onWork f).phase = s.phase := rfl

@[simp] theorem State.onWork_work (f : Work → Work) :
    (s.onWork f).work = f s.work := rfl

@[simp] theorem State.onWork_freeCount (f : Work → Work) :
    (s.onWork f).freeCount = s.freeCount := rfl

@[simp] theorem State.onWork_requests (f : Work → Work) :
    (s.onWork f).requests = s.requests := rfl

@[simp] theorem State.onWork_transcript (f : Work → Work) :
    (s.onWork f).transcript = s.transcript := rfl

@[simp] theorem State.respond_phase (resp : Response) :
    (s.respond resp).phase = .idle := rfl

@[simp] theorem State.respond_work (resp : Response) :
    (s.respond resp).work = s.work := rfl

@[simp] theorem State.respond_freeCount (resp : Response) :
    (s.respond resp).freeCount = s.freeCount := rfl

@[simp] theorem State.respond_requests (resp : Response) :
    (s.respond resp).requests = s.requests.drop 1 := rfl

@[simp] theorem State.respond_transcript (resp : Response) :
    (s.respond resp).transcript = s.transcript ++ (s.requests.take 1).map (fun r => ⟨r, resp⟩) := rfl

@[simp] theorem State.raise_phase (e : ErrorKind) :
    (s.raise e).phase = .idle := rfl

@[simp] theorem State.raise_work (e : ErrorKind) :
    (s.raise e).work = s.work := rfl

@[simp] theorem State.raise_freeCount (e : ErrorKind) :
    (s.raise e).freeCount = s.freeCount := rfl

@[simp] theorem State.raise_requests (e : ErrorKind) :
    (s.raise e).requests = s.requests.drop 1 := rfl

@[simp] theorem State.raise_transcript (e : ErrorKind) :
    (s.raise e).transcript = s.transcript ++ (s.requests.take 1).map (fun r => ⟨r, .error e⟩) := rfl

@[simp] theorem State.releaseAdder_phase :
    s.releaseAdder.phase = s.phase := rfl

@[simp] theorem State.releaseAdder_freeCount :
    s.releaseAdder.freeCount = s.freeCount + 2 := rfl

@[simp] theorem State.releaseAdder_requests :
    s.releaseAdder.requests = s.requests := rfl

@[simp] theorem State.releaseAdder_transcript :
    s.releaseAdder.transcript = s.transcript := rfl

@[simp] theorem State.releaseAdder_work_subtractor :
    s.releaseAdder.work.subtractor = s.work.subtractor := rfl

@[simp] theorem State.releaseAdder_work_multiplier :
    s.releaseAdder.work.multiplier = s.work.multiplier := rfl

@[simp] theorem State.releaseAdder_work_divider :
    s.releaseAdder.work.divider = s.work.divider := rfl

@[simp] theorem State.releaseSubtractor_phase :
    s.releaseSubtractor.phase = s.phase := rfl

@[simp] theorem State.releaseSubtractor_freeCount :
    s.releaseSubtractor.freeCount = s.freeCount + 2 := rfl

@[simp] theorem State.releaseSubtractor_requests :
    s.releaseSubtractor.requests = s.requests := rfl

@[simp] theorem State.releaseSubtractor_transcript :
    s.releaseSubtractor.transcript = s.transcript := rfl

@[simp] theorem State.releaseSubtractor_work_adder :
    s.releaseSubtractor.work.adder = s.work.adder := rfl

@[simp] theorem State.releaseSubtractor_work_multiplier :
    s.releaseSubtractor.work.multiplier = s.work.multiplier := rfl

@[simp] theorem State.releaseSubtractor_work_divider :
    s.releaseSubtractor.work.divider = s.work.divider := rfl

@[simp] theorem State.releaseMultiplier_phase :
    s.releaseMultiplier.phase = s.phase := rfl

@[simp] theorem State.releaseMultiplier_freeCount :
    s.releaseMultiplier.freeCount = s.freeCount + 2 := rfl

@[simp] theorem State.releaseMultiplier_requests :
    s.releaseMultiplier.requests = s.requests := rfl

@[simp] theorem State.releaseMultiplier_transcript :
    s.releaseMultiplier.transcript = s.transcript := rfl

@[simp] theorem State.releaseMultiplier_work_adder :
    s.releaseMultiplier.work.adder = s.work.adder := rfl

@[simp] theorem State.releaseMultiplier_work_subtractor :
    s.releaseMultiplier.work.subtractor = s.work.subtractor := rfl

@[simp] theorem State.releaseMultiplier_work_divider :
    s.releaseMultiplier.work.divider = s.work.divider := rfl

@[simp] theorem State.releaseDivider_phase :
    s.releaseDivider.phase = s.phase := rfl

@[simp] theorem State.releaseDivider_freeCount :
    s.releaseDivider.freeCount = s.freeCount + 2 := rfl

@[simp] theorem State.releaseDivider_requests :
    s.releaseDivider.requests = s.requests := rfl

@[simp] theorem State.releaseDivider_transcript :
    s.releaseDivider.transcript = s.transcript := rfl

@[simp] theorem State.releaseDivider_work_adder :
    s.releaseDivider.work.adder = s.work.adder := rfl

@[simp] theorem State.releaseDivider_work_subtractor :
    s.releaseDivider.work.subtractor = s.work.subtractor := rfl

@[simp] theorem State.releaseDivider_work_multiplier :
    s.releaseDivider.work.multiplier = s.work.multiplier := rfl

/-! ### The storage of the transient registers -/

variable (w : Work) (n m : BitVector)

@[simp] theorem Work.addRun_subtractor :
    (w.addRun n m).subtractor = w.subtractor := rfl

@[simp] theorem Work.addRun_multiplier :
    (w.addRun n m).multiplier = w.multiplier := rfl

@[simp] theorem Work.addRun_divider :
    (w.addRun n m).divider = w.divider := rfl

@[simp] theorem Work.subRun_adder :
    (w.subRun n m).adder = w.adder := rfl

@[simp] theorem Work.subRun_multiplier :
    (w.subRun n m).multiplier = w.multiplier := rfl

@[simp] theorem Work.subRun_divider :
    (w.subRun n m).divider = w.divider := rfl

@[simp] theorem State.applyReset_phase : s.applyReset.phase = .idle := rfl

@[simp] theorem State.applyReset_transcript : s.applyReset.transcript = s.transcript := rfl

/-! ### The ports -/

/-- The ports are those of the request at the head of the host's list. -/
theorem State.ports_of_requests {s : State} {r : Request} {rest : List Request}
    (h : s.requests = r :: rest) : s.ports = r.ports := by
  simp [State.ports, h]

/-- Accepting an operation leaves the ports as they are. -/
@[simp] theorem State.begin_ports (i : Instr) : (s.begin i).ports = s.ports := rfl

/-- What giving a response does to the host's side: the head request is done with, and it and its
response end the transcript. -/
theorem State.respond_of_requests {s : State} {r : Request} {rest : List Request}
    (h : s.requests = r :: rest) (resp : Response) :
    (s.respond resp).requests = rest ∧
      (s.respond resp).transcript = s.transcript ++ [⟨r, resp⟩] := by
  simp [h]

end Sys2Proof.Machine
end

