-- ==== Sys2Proof/Laws/Step.lean ====
section
/-! SUPPORT. What decoding, giving a response and one step can do, each said once. -/

namespace Sys2Proof.Machine

/-- A code that decodes to no operation is `invalid`, with the code itself (R34). -/
theorem decode_eq_error {op : BitVec 4} {e : DecodeError} (h : decode op = .error e) :
    e = .invalid op := by
  unfold decode decodeWith at h
  split at h
  · cases h
  · cases h; rfl

/-- Giving a response to the head request answers it, whatever was done to the transient registers
before. -/
theorem answers_respond {s u : State} {r : Request} {rest : List Request} {resp : Response}
    (hr : s.requests = r :: rest) (h1 : u.requests = s.requests)
    (h2 : u.transcript = s.transcript) : Answers s (u.respond resp) r rest resp :=
  ⟨rfl, by simp [h1, hr], by simp [h1, h2, hr]⟩

/-- A state answers its request in one way only. -/
theorem Answers.response_unique {s t : State} {r : Request} {rest : List Request}
    {x y : Response} (hx : Answers s t r rest x) (hy : Answers s t r rest y) : x = y := by
  simpa using hx.transcript.symm.trans hy.transcript

/-- All that a step that goes on can be: the operation in flight, an idle unit of which nothing is
requested, or the operation that the head request selects. -/
theorem step_cases {s t : State} (h : step s = .next t) :
    (∃ i, s.phase = .running i ∧ exec i s = .next t) ∨
    (s.phase = .idle ∧ s.requests = [] ∧ t = s) ∨
    (∃ i r rest, s.phase = .idle ∧ s.requests = r :: rest ∧ decode r.op = .ok i ∧
      exec i s = .next t) := by
  unfold step State.nextOperation at h
  cases hp : s.phase with
  | running i => exact .inl ⟨i, rfl, by simpa [hp] using h⟩
  | idle =>
    right
    cases hr : s.requests with
    | nil => exact .inl ⟨rfl, rfl, by simpa [hp, hr, eq_comm] using h⟩
    | cons r rest =>
      cases hd : decode r.op with
      | ok i => exact .inr ⟨i, r, rest, rfl, rfl, hd, by simpa [hp, hr, hd] using h⟩
      | error e => obtain rfl := decode_eq_error hd; simp [hp, hr, hd] at h

end Sys2Proof.Machine
end

