-- ==== Sys2Proof/Tests/Slice0.lean ====
section
/-! SUPPORT. Small tests: the well-formedness checks, every operation's select code, one or two vectors
of spec/95_test_vectors.md per operation, and a witness for the hypotheses of each statement. -/

namespace Sys2Proof.Tests

open Sys2Proof.Machine

/-! ### Helpers -/

/-- A request for the operation whose select code is `op`. -/
def request (op : BitVec 4) (a : PortValue) (b c : PortValue := .nothing) : Request := ⟨op, a, b, c⟩

/-- The machine after reset with one request presented. -/
def presenting (r : Request) : State := { State.reset with requests := [r] }

/-- The response of one step on a request, if the step goes on. -/
def answer (r : Request) : Option Response :=
  match step (presenting r) with
  | .next t => t.transcript.getLast?.map Exchange.response
  | .fault _ => none
  | .refused _ => none

/-- The refusal of one step on a request, if the step refuses. -/
def refusal (r : Request) : Option Refusal :=
  match step (presenting r) with
  | .next _ => none
  | .fault _ => none
  | .refused x => some x

/-- The step on a presented instruction word goes on. -/
def performs (w : Nat) : Bool :=
  match step (State.reset.withFetchWord 8 w) with
  | .next t => t.transcript.length == 1
  | .fault _ => false
  | .refused _ => false

/-! ### Well-formedness: an ill-formed term for each check (R35) -/

theorem test_wf_rejects_negative_integer :
    Instr.enc.operandsWf ⟨.integer (-1), .nothing, .nothing⟩ = false := by decide
theorem test_wf_rejects_bytes_as_nat :
    Instr.enc.operandsWf ⟨.bytes [0x05#8], .nothing, .nothing⟩ = false := by decide
theorem test_wf_rejects_bit_two :
    Instr.fa.operandsWf ⟨.integer 2, .integer 0, .integer 0⟩ = false := by decide
theorem test_wf_rejects_empty_bytes :
    Instr.dec.operandsWf ⟨.bytes [], .nothing, .nothing⟩ = false := by decide
theorem test_wf_rejects_leading_zero :
    Instr.dec.operandsWf ⟨.bytes [0x01#8, 0x00#8], .nothing, .nothing⟩ = false := by decide
theorem test_wf_rejects_missing_operand :
    Instr.add.operandsWf ⟨.bytes [0x05#8], .nothing, .nothing⟩ = false := by decide
theorem test_wf_rejects_bit_sequence :
    Instr.add.operandsWf ⟨.bytes [0x05#8], .bitSeq [true], .nothing⟩ = false := by decide
theorem test_wf_ignores_unused_port :
    Instr.dec.operandsWf ⟨.bytes [0x00#8], .integer (-1), .bytes []⟩ = true := by decide
theorem test_wf_rejects_absent_encw :
    Instr.encw.existsWith false = false := by decide

/-! ### Decoding: every select code written out bit by bit from R31's table -/

theorem test_decode_enc : decodeTableWord 8 0b0000 = some .enc := by decide
theorem test_decode_dec : decodeTableWord 8 0b0001 = some .dec := by decide
theorem test_decode_bits : decodeTableWord 8 0b0010 = some .bits := by decide
theorem test_decode_bitsr : decodeTableWord 8 0b0011 = some .bitsr := by decide
theorem test_decode_shl : decodeTableWord 8 0b0100 = some .shl := by decide
theorem test_decode_fa : decodeTableWord 8 0b0101 = some .fa := by decide
theorem test_decode_add : decodeTableWord 8 0b0110 = some .add := by decide
theorem test_decode_sub : decodeTableWord 8 0b0111 = some .sub := by decide
theorem test_decode_mul : decodeTableWord 8 0b1000 = some .mul := by decide
theorem test_decode_div : decodeTableWord 8 0b1001 = some .div := by decide
theorem test_decode_encw : decodeTableWord 8 0b1010 = some .encw := by decide
theorem test_decode_reserved : (List.range 5).all (fun k => decodeTableWord 8 (0xB + k) == none) = true := by decide
theorem test_decode_rows_do_not_overlap :
    opcodeTable.Pairwise (fun x y => x.code &&& y.mask ≠ y.code) := by decide
theorem test_presented_words_are_performed : (List.range 11).all performs = true := by decide

/-! ### Vectors of spec/95_test_vectors.md -/

/-- Section 2: 513. -/
theorem test_enc_513 : answer (request 0x0#4 (.integer 513))
    = some (.okOne (.bitVector ⟨[0x01#8, 0x02#8], rfl⟩)) := by decide
/-- Section 2: 65536. -/
theorem test_enc_65536 : answer (request 0x0#4 (.integer 65536))
    = some (.okOne (.bitVector ⟨[0x00#8, 0x00#8, 0x01#8], rfl⟩)) := by decide
/-- Section 2: 513. -/
theorem test_dec_513 : answer (request 0x1#4 (.bytes [0x01#8, 0x02#8])) = some (.okOne (.nat 513)) := by decide
/-- Section 2: `DEC [0x01, 0x00]` is refused. -/
theorem test_dec_not_canonical : refusal (request 0x1#4 (.bytes [0x01#8, 0x00#8]))
    = some (.illFormedOperand .a) := by decide
/-- Section 2: 12. -/
theorem test_bits_12 : answer (request 0x2#4 (.bytes [0x0C#8]))
    = some (.okOne (.bitSeq [false, false, true, true])) := by decide
/-- Section 2: 513, a whole low byte and the significant bits of the high one. -/
theorem test_bits_513 : answer (request 0x2#4 (.bytes [0x01#8, 0x02#8]))
    = some (.okOne (.bitSeq [true, false, false, false, false, false, false, false, false, true])) := by
  decide
/-- Section 2: 12. -/
theorem test_bitsr_12 : answer (request 0x3#4 (.bytes [0x0C#8]))
    = some (.okOne (.bitSeq [true, true, false, false])) := by decide
/-- Section 2: 0. -/
theorem test_bitsr_0 : answer (request 0x3#4 (.bytes [0x00#8])) = some (.okOne (.bitSeq [false])) := by decide
/-- Section 2: `SHL [0x81], 7`. -/
theorem test_shl_129_7 : answer (request 0x4#4 (.bytes [0x81#8]) (.integer 7))
    = some (.okOne (.bitVector ⟨[0x80#8, 0x40#8], rfl⟩)) := by decide
/-- Section 2: zero stays one byte. -/
theorem test_shl_0_5 : answer (request 0x4#4 (.bytes [0x00#8]) (.integer 5))
    = some (.okOne (.bitVector ⟨[0x00#8], rfl⟩)) := by decide
/-- Section 3, row 1 0 1. -/
theorem test_fa_101 : answer (request 0x5#4 (.integer 1) (.integer 0) (.integer 1))
    = some (.okTwo (.bit false) (.bit true)) := by decide
/-- Section 8: 2 is not a bit. -/
theorem test_fa_not_a_bit : refusal (request 0x5#4 (.integer 2) (.integer 0) (.integer 0))
    = some (.illFormedOperand .a) := by decide
/-- V-ADD-1. -/
theorem test_add_5_12 : answer (request 0x6#4 (.bytes [0x05#8]) (.bytes [0x0C#8]))
    = some (.okOne (.nat 17)) := by decide
/-- V-ADD-2: the appended final carry is the whole result. -/
theorem test_add_255_1 : answer (request 0x6#4 (.bytes [0xFF#8]) (.bytes [0x01#8]))
    = some (.okOne (.nat 256)) := by decide
/-- V-SUB-1: missing bits of the subtrahend are complemented. -/
theorem test_sub_256_1 : answer (request 0x7#4 (.bytes [0x00#8, 0x01#8]) (.bytes [0x01#8]))
    = some (.okOne (.nat 255)) := by decide
/-- Section 5: equal operands, the last pair before the open case. -/
theorem test_sub_5_5 : answer (request 0x7#4 (.bytes [0x05#8]) (.bytes [0x05#8]))
    = some (.okOne (.nat 0)) := by decide
/-- V-MUL-2. -/
theorem test_mul_13_11 : answer (request 0x8#4 (.bytes [0x0D#8]) (.bytes [0x0B#8]))
    = some (.okOne (.nat 143)) := by decide
/-- Section 6: `m` zero. -/
theorem test_mul_5_0 : answer (request 0x8#4 (.bytes [0x05#8]) (.bytes [0x00#8]))
    = some (.okOne (.nat 0)) := by decide
/-- V-DIV-2. -/
theorem test_div_513_4 : answer (request 0x9#4 (.bytes [0x01#8, 0x02#8]) (.bytes [0x04#8]))
    = some (.okTwo (.nat 128) (.nat 1)) := by decide
/-- Section 7: zero by zero. -/
theorem test_div_0_0 : answer (request 0x9#4 (.bytes [0x00#8]) (.bytes [0x00#8]))
    = some (.error .divisionByZero) := by decide
/-- Section 2: `ENCW 256, 1` fails and `ENCW 255, 1`, the largest value that fits, does not. -/
theorem test_encw_one_byte :
    answer (request 0xA#4 (.integer 256) (.integer 1)) = some (.error .outOfRange) ∧
    answer (request 0xA#4 (.integer 255) (.integer 1))
      = some (.okOne (.bitVector ⟨[0xFF#8], rfl⟩)) := by decide
/-- C1: `ENCW 0, 0` is OutOfRange. -/
theorem test_encw_0_0 : answer (request 0xA#4 (.integer 0) (.integer 0))
    = some (.error .outOfRange) := by decide
/-- Section 8. -/
theorem test_reserved_select : refusal (request 0xB#4 .nothing) = some (.reservedSelect 0xB#4) := by decide

/-! ### Witnesses: for each statement with hypotheses, concrete values that meet all of them

Named after the statement. `presenting r` has the head request `r` and no other. -/

/-- The BitVectors of 0, 5, 12 and 513. -/
def v0 : BitVector := ⟨[0x00#8], rfl⟩
def v5 : BitVector := ⟨[0x05#8], rfl⟩
def v12 : BitVector := ⟨[0x0C#8], rfl⟩
def v513 : BitVector := ⟨[0x01#8, 0x02#8], rfl⟩

/-- A request with two BitVector operands. -/
def request2 (op : BitVec 4) (n m : BitVector) : Request :=
  request op (.ofBitVector n) (.ofBitVector m)

/-- A state with `ADD` in flight. -/
def adding : State := { presenting (request2 0x6#4 v5 v12) with phase := .running .add }

/-- The head request and its first operand, as most statements ask for them. -/
def Presents (r : Request) (a : PortValue) : Prop :=
  (presenting r).requests = r :: [] ∧ r.ports.a = a

/-- The head request and its first two operands. -/
def Presents2 (r : Request) (a b : PortValue) : Prop := Presents r a ∧ r.ports.b = b

theorem witness_ReservedSelectCodesAreInvalid : 0xB#4 ≤ 0xB#4 ∧ 0xB#4 ≤ 0xF#4 := by decide

theorem witness_StepRunsTheSelectedOperation :
    ((presenting (request2 0x6#4 v5 v12)).phase = .idle ∧
      (presenting (request2 0x6#4 v5 v12)).requests = request2 0x6#4 v5 v12 :: [] ∧
      decode (request2 0x6#4 v5 v12).op = .ok .add) ∧
    adding.phase = .running .add := by decide

theorem witness_StepRefusesAReservedSelectCode :
    (presenting (request 0xB#4 .nothing)).phase = .idle ∧
    (presenting (request 0xB#4 .nothing)).requests = request 0xB#4 .nothing :: [] ∧
    ∀ i, decode (request 0xB#4 .nothing).op ≠ .ok i := by
  refine ⟨rfl, rfl, fun i => ?_⟩
  cases i <;> decide

theorem witness_StepWithoutARequestChangesNothing :
    State.reset.phase = .idle ∧ State.reset.requests = [] := by decide

theorem witness_PresentedWordIsPerformedNext : decodeTableWord 8 0x9 = some .div := by decide

/-- Both clauses: well-formed operands, and operands that are not. -/
theorem witness_ExactlyWellFormedRequestsArePerformed :
    Instr.add.operandsWf (presenting (request2 0x6#4 v5 v12)).ports = true ∧
    Instr.add.operandsWf State.reset.ports = false := by decide

theorem witness_EncGivesTheCanonicalEncoding :
    Presents (request 0x0#4 (.ofNat 256)) (.ofNat 256) := ⟨rfl, rfl⟩

/-- Both outcomes, at the boundary: 256 needs two bytes, 255 one. -/
theorem witness_EncwChecksTheByteCount :
    (Presents2 (request 0xA#4 (.ofNat 256) (.ofNat 1)) (.ofNat 256) (.ofNat 1) ∧
      1 < (enc 256).bytes.length) ∧
    Presents2 (request 0xA#4 (.ofNat 255) (.ofNat 1)) (.ofNat 255) (.ofNat 1) ∧
      ¬ 1 < (enc 255).bytes.length :=
  ⟨⟨⟨⟨rfl, rfl⟩, rfl⟩, by decide⟩, ⟨⟨rfl, rfl⟩, rfl⟩, by decide⟩

theorem witness_DecGivesTheValue :
    Presents (request 0x1#4 (.ofBitVector v513)) (.ofBitVector v513) := ⟨rfl, rfl⟩

/-- All three clauses: the value zero, two bytes, and a request. -/
theorem witness_BitsGivesTheForwardView :
    val v0 = 0 ∧ (val v513 ≠ 0 ∧ v513.bytes = [0x01#8] ++ [0x02#8]) ∧
    Presents (request 0x2#4 (.ofBitVector v513)) (.ofBitVector v513) :=
  ⟨by decide, by decide, rfl, rfl⟩

theorem witness_BitsrGivesTheReverseOfBits :
    Presents (request 0x3#4 (.ofBitVector v12)) (.ofBitVector v12) := ⟨rfl, rfl⟩

theorem witness_ShlGivesTheShiftedValue :
    Presents2 (request 0x4#4 (.ofBitVector v5) (.ofNat 9)) (.ofBitVector v5) (.ofNat 9) :=
  ⟨⟨rfl, rfl⟩, rfl⟩

theorem witness_ShiftLeftGrowsTheBitLength : 0 < val v5 := by decide

theorem witness_EncodingLaws : 0 < 1 := by decide

/-- A top byte of 2 has two significant bits. -/
theorem witness_BitLengthOfAValue :
    v513.bytes = [0x01#8] ++ [0x02#8] ∧ IsBitLength (0x02#8).toNat 2 := by
  refine ⟨rfl, by decide, by decide, fun j hj h => ?_⟩
  by_contra hc
  obtain rfl : j = 1 := by omega
  revert h; decide

theorem witness_FaGivesSumAndCarry :
    Presents2 (request 0x5#4 (.ofBit true) (.ofBit false) (.ofBit true)) (.ofBit true) (.ofBit false) ∧
    (request 0x5#4 (.ofBit true) (.ofBit false) (.ofBit true)).ports.c = .ofBit true :=
  ⟨⟨⟨rfl, rfl⟩, rfl⟩, rfl⟩

theorem witness_FaAddsItsInputs :
    Presents2 (request 0x5#4 (.ofBit true) (.ofBit true) (.ofBit true)) (.ofBit true) (.ofBit true) ∧
    (request 0x5#4 (.ofBit true) (.ofBit true) (.ofBit true)).ports.c = .ofBit true :=
  ⟨⟨⟨rfl, rfl⟩, rfl⟩, rfl⟩

theorem witness_AddGivesTheSum :
    Presents2 (request2 0x6#4 v5 v12) (.ofBitVector v5) (.ofBitVector v12) := ⟨⟨rfl, rfl⟩, rfl⟩

/-- Both clauses: a zero second operand, and two requests with the operands swapped. -/
theorem witness_AddLaws :
    Presents2 (request2 0x6#4 v5 (enc 0)) (.ofBitVector v5) (.ofBitVector (enc 0)) ∧
    Presents2 (request2 0x6#4 v5 v12) (.ofBitVector v5) (.ofBitVector v12) ∧
    Presents2 (request2 0x6#4 v12 v5) (.ofBitVector v12) (.ofBitVector v5) :=
  ⟨⟨⟨rfl, rfl⟩, rfl⟩, ⟨⟨rfl, rfl⟩, rfl⟩, ⟨rfl, rfl⟩, rfl⟩

theorem witness_SubGivesTheDifference :
    Presents2 (request2 0x7#4 v5 v5) (.ofBitVector v5) (.ofBitVector v5) ∧ val v5 ≤ val v5 :=
  ⟨⟨⟨rfl, rfl⟩, rfl⟩, by decide⟩

theorem witness_SubUnderflowIsAnOpenBoundedFunction :
    Presents2 (request2 0x7#4 v5 v12) (.ofBitVector v5) (.ofBitVector v12) ∧ val v5 < val v12 :=
  ⟨⟨⟨rfl, rfl⟩, rfl⟩, by decide⟩

theorem witness_SubResultFitsTheLongerOperand :
    Presents2 (request2 0x7#4 v12 v5) (.ofBitVector v12) (.ofBitVector v5) := ⟨⟨rfl, rfl⟩, rfl⟩

theorem witness_SubtractorRippleAddsTheComplement : val v5 ≤ val v12 := by decide

theorem witness_MulGivesTheProduct :
    Presents2 (request2 0x8#4 v12 v0) (.ofBitVector v12) (.ofBitVector v0) := ⟨⟨rfl, rfl⟩, rfl⟩

theorem witness_MultiplierAccumulatesPartialProducts : 0 ≤ bitlen v5 ∧ 3 ≤ bitlen v5 := by decide

theorem witness_DivByZeroRaisesDivisionByZero :
    Presents2 (request2 0x9#4 v5 v0) (.ofBitVector v5) (.ofBitVector v0) ∧ val v0 = 0 :=
  ⟨⟨⟨rfl, rfl⟩, rfl⟩, by decide⟩

theorem witness_DivGivesQuotientAndRemainder :
    Presents2 (request2 0x9#4 v513 v5) (.ofBitVector v513) (.ofBitVector v5) ∧ val v5 ≠ 0 :=
  ⟨⟨⟨rfl, rfl⟩, rfl⟩, by decide⟩

theorem witness_DividerStepKeepsTheRemainderSmall : val v5 ≠ 0 := by decide

theorem witness_DividerKeepsTheConsumedPart : val v12 ≠ 0 := by decide

/-- V-DIV-1's third step: remainder 5 is compared with the divisor 5. -/
theorem witness_DividerNeverUnderflows :
    val v5 ≠ 0 ∧
    val v5 ≤ ((Work.reset.divRun v5 [true, false]).divShift true).divider.remainder := by decide

theorem witness_EveryResponseConformsToItsOperation :
    (presenting (request2 0x6#4 v5 v12)).requests = request2 0x6#4 v5 v12 :: [] ∧
    ∃ t, exec .add (presenting (request2 0x6#4 v5 v12)) = .next t := ⟨rfl, _, rfl⟩

/-- An operation in flight, whose step goes on. -/
theorem witness_EveryStepEndsIdle : ∃ t, step adding = .next t := ⟨_, rfl⟩

/-- Two states that differ in storage, count and transcript, with the same operands on used ports. -/
theorem witness_EqualRequestsGiveEqualResponses :
    let r := request 0x1#4 (.ofBitVector v513)
    let r' := request 0x1#4 (.ofBitVector v513) (.integer (-1))
    let s := presenting r
    let s' := { presenting r' with freeCount := 7, transcript := [⟨r, .okOne (.nat 513)⟩] }
    s.phase = .idle ∧ s'.phase = .idle ∧ s.requests = r :: [] ∧ s'.requests = r' :: [] ∧
    decode r.op = .ok .dec ∧ decode r'.op = .ok .dec ∧ SameOperands .dec r.ports r'.ports ∧
    ∃ t, step s = .next t := by
  refine ⟨rfl, rfl, rfl, rfl, by decide, by decide, fun p hp => ?_, _, rfl⟩
  cases p
  · rfl
  · exact absurd rfl hp
  · rfl

theorem witness_RequestsArePerformedInOrder :
    ∃ t, step (presenting (request2 0x9#4 v5 v0)) = .next t := ⟨_, rfl⟩

/-- Two requests in either order, both performed. -/
theorem witness_OrderOfTwoRequestsDoesNotMatter :
    let r := request 0x0#4 (.ofNat 5)
    let q := request2 0x9#4 v5 v0
    let s := { State.reset with requests := [r, q] }
    let s' := { State.reset with requests := [q, r] }
    s.phase = .idle ∧ s'.phase = .idle ∧ s.requests = r :: q :: [] ∧ s'.requests = q :: r :: [] ∧
    ∃ u t, step s = .next u ∧ step u = .next t :=
  ⟨rfl, rfl, rfl, rfl, _, _, rfl, rfl⟩

/-- Both clauses: an idle state and one with an operation in flight. -/
theorem witness_ResetAbandonsTheOperationInFlight :
    State.reset.phase = .idle ∧
    adding.phase = .running .add ∧ adding.requests = request2 0x6#4 v5 v12 :: [] := by decide

/-- A lawful state with a request whose step goes on. -/
theorem witness_StepKeepsEveryResponseLawful :
    Lawful (presenting (request2 0x6#4 v5 v12)) ∧
    ∃ t, step (presenting (request2 0x6#4 v5 v12)) = .next t :=
  ⟨⟨rfl, fun _ he => absurd he (List.not_mem_nil)⟩, _, rfl⟩

/-- A state that follows any function, with a request whose step goes on. -/
theorem witness_OneFunctionAnswersEveryRequest :
    (∀ F, FollowsFunction F (presenting (request2 0x6#4 v5 v12))) ∧
    ∃ t, step (presenting (request2 0x6#4 v5 v12)) = .next t :=
  ⟨fun _ => ⟨rfl, fun _ he => absurd he (List.not_mem_nil)⟩, _, rfl⟩

end Sys2Proof.Tests
end

/-! PROOFS. The statements of 00_scope.md: which operation a step carries out, and that one
function of the operation and the operands it uses gives every response (R5, R6, R25). -/

section

namespace Sys2Proof.Machine

/-! ### The Multiplier: its accumulator at the end does not depend on what its storage held -/

/-- One turn advances the position counter, whatever the bit. -/
@[simp] theorem Work.mulStep_pos (n : BitVector) (w : Work) (b : Bit) :
    (w.mulStep n b).multiplier.pos = w.multiplier.pos + 1 := by
  cases b <;> rfl

/-- R65: a turn adds `n`, shifted to the current position, exactly when the bit is 1. -/
theorem Work.val_mulStep_acc (n : BitVector) (w : Work) (b : Bit) :
    val (w.mulStep n b).multiplier.acc
      = val w.multiplier.acc + val n * 2 ^ w.multiplier.pos * b.toNat := by
  cases b with
  | false => simp [Work.mulStep]
  | true => simp [Work.mulStep, Work.accumulate, val_enc, addRun_result, shl]

/-- The turns for the bits `ms` add `n` times their value, shifted to the position they start at. -/
theorem Work.val_foldl_mulStep_acc (n : BitVector) (ms : BitSeq) (w : Work) :
    val (ms.foldl (Work.mulStep n) w).multiplier.acc
      = val w.multiplier.acc + val n * 2 ^ w.multiplier.pos * bitsVal ms := by
  induction ms generalizing w with
  | nil => simp [bitsVal]
  | cons b ms ih =>
    rw [List.foldl_cons, ih, Work.val_mulStep_acc, Work.mulStep_pos, bitsVal, pow_succ]
    ring

/-- R66: after all bits of `m` the accumulator holds the product. -/
theorem Work.val_mulRun_bits_acc (w : Work) (n m : BitVector) :
    val (w.mulRun n (bits m)).multiplier.acc = val n * val m := by
  simp [Work.mulRun, Work.val_foldl_mulStep_acc, val_enc, bitsVal_bits]

/-! ### The Divider: likewise its quotient and remainder -/

/-- The Divider's registers hold quotient and remainder of `p` by `m` (the invariant under R74, with
R73's bound). -/
structure DividerHolds (m : BitVector) (w : Work) (p : Nat) : Prop where
  sum : w.divider.quotient * val m + w.divider.remainder = p
  small : w.divider.remainder < val m

/-- R71 step 2c subtracts exactly: its precondition is the comparison just made (R76). -/
theorem Work.divSubtract_divider (w : Work) (m : BitVector) (h : val m ≤ w.divider.remainder) :
    (w.divSubtract m).divider = ⟨w.divider.quotient + 1, w.divider.remainder - val m⟩ := by
  simp [Work.divSubtract, subRun_result, val_enc, Nat.not_lt.mpr h]

/-- One step of R71's loop takes the next bit of the dividend into the number divided. -/
theorem DividerHolds.divStep {m : BitVector} {w : Work} {p : Nat} (h : DividerHolds m w p)
    (b : Bit) : DividerHolds m (w.divStep m b) (2 * p + b.toNat) := by
  obtain ⟨hsum, hsmall⟩ := h
  have hb := b.toNat_le
  by_cases hle : val m ≤ (w.divShift b).divider.remainder
  · have hstep : (w.divStep m b).divider
        = ⟨w.divider.quotient * 2 + 1, w.divider.remainder * 2 + b.toNat - val m⟩ := by
      rw [Work.divStep, if_pos hle, Work.divSubtract_divider _ _ hle]; rfl
    have hle' : val m ≤ w.divider.remainder * 2 + b.toNat := hle
    refine ⟨?_, ?_⟩ <;> rw [hstep]
    · simp only [add_mul, one_mul, mul_right_comm _ 2]; omega
    · simp only; omega
  · have hstep : w.divStep m b = w.divShift b := by rw [Work.divStep, if_neg hle]
    rw [hstep]
    refine ⟨?_, not_le.mp hle⟩
    simp only [Work.divShift, mul_right_comm _ 2]; omega

/-- The steps for the bits `bs` append them to the number divided. -/
theorem DividerHolds.foldl_divStep {m : BitVector} (bs : BitSeq) {w : Work} {p : Nat}
    (h : DividerHolds m w p) :
    DividerHolds m (bs.foldl (Work.divStep m) w) (bs.foldl (fun q b => 2 * q + b.toNat) p) := by
  induction bs generalizing w p with
  | nil => exact h
  | cons b bs ih => exact ih (h.divStep b)

/-- R21: the reversed view, read most significant bit first, gives the value. -/
theorem foldl_bitsReversed (v : BitVector) :
    (bitsReversed v).foldl (fun q b => 2 * q + b.toNat) 0 = val v := by
  rw [← bitsVal_bits, bitsReversed, List.foldl_reverse]
  induction bits v with
  | nil => rfl
  | cons b bs ih => rw [List.foldr_cons, ih, bitsVal]; omega

/-- R74: the invariant determines the registers. -/
theorem DividerHolds.divider_eq {m : BitVector} {w : Work} {p : Nat} (h : DividerHolds m w p) :
    w.divider = ⟨p / val m, p % val m⟩ := by
  obtain ⟨hsum, hsmall⟩ := h
  obtain ⟨hq, hr⟩ := (Nat.div_mod_unique (Nat.zero_lt_of_lt hsmall)).mpr
    ⟨(by rw [← hsum]; ring : w.divider.remainder + val m * w.divider.quotient = p), hsmall⟩
  rw [hq, hr]

/-- R74: after all bits of the dividend the registers hold its quotient and remainder. -/
theorem Work.divRun_bitsReversed_divider (w : Work) (n m : BitVector) (hm : val m ≠ 0) :
    (w.divRun m (bitsReversed n)).divider = ⟨val n / val m, val n % val m⟩ := by
  have hstart : DividerHolds m { w with divider := ⟨0, 0⟩ } 0 :=
    ⟨by simp, Nat.pos_of_ne_zero hm⟩
  rw [← foldl_bitsReversed n]
  exact (hstart.foldl_divStep (bitsReversed n)).divider_eq

/-! ### The one function of R6 -/

/-- R6: the response to operation `i` with the operands on `p`, in plain arithmetic: no state, no
transient register. `none` when a used port does not carry a value of its type (R35). -/
def pureResponse (i : Instr) (p : Ports) : Option Response :=
  match i with
  | .enc => (asNat (p.get .a)).bind fun n => some (.okOne (.bitVector (enc n)))
  | .dec => (asBitVector (p.get .a)).bind fun v => some (.okOne (.nat (val v)))
  | .bits => (asBitVector (p.get .a)).bind fun v => some (.okOne (.bitSeq (bits v)))
  | .bitsr => (asBitVector (p.get .a)).bind fun v => some (.okOne (.bitSeq (bitsReversed v)))
  | .shl => (asBitVector (p.get .a)).bind fun v => (asNat (p.get .b)).bind fun k =>
      some (.okOne (.bitVector (shl v k)))
  | .fa => (asBit (p.get .a)).bind fun a => (asBit (p.get .b)).bind fun b =>
      (asBit (p.get .c)).bind fun c =>
      some (.okTwo (.bit (fullAdder a b c).sum) (.bit (fullAdder a b c).carryOut))
  | .add => (asBitVector (p.get .a)).bind fun n => (asBitVector (p.get .b)).bind fun m =>
      some (.okOne (.nat (val n + val m)))
  | .sub => (asBitVector (p.get .a)).bind fun n => (asBitVector (p.get .b)).bind fun m =>
      some (.okOne (.nat
        (if val n < val m then subUnderflow (val n) (val m) else val n - val m)))
  | .mul => (asBitVector (p.get .a)).bind fun n => (asBitVector (p.get .b)).bind fun m =>
      some (.okOne (.nat (val n * val m)))
  | .div => (asBitVector (p.get .a)).bind fun n => (asBitVector (p.get .b)).bind fun m =>
      some (if val m = 0 then .error .divisionByZero
        else .okTwo (.nat (val n / val m)) (.nat (val n % val m)))
  | .encw => (asNat (p.get .a)).bind fun n => (asNat (p.get .b)).bind fun w =>
      some (if w < nbytes n then .error .outOfRange else .okOne (.bitVector (enc n)))

/-- R30: the ports that an operation does not use make no difference to its response. -/
theorem pureResponse_congr {i : Instr} {p q : Ports} (h : SameOperands i p q) :
    pureResponse i p = pureResponse i q := by
  cases i with
  | enc | dec | bits | bitsr => simp only [pureResponse, h .a (by decide)]
  | shl | add | sub | mul | div | encw =>
    simp only [pureResponse, h .a (by decide), h .b (by decide)]
  | fa => simp only [pureResponse, h .a (by decide), h .b (by decide), h .c (by decide)]

/-! ### Every operation performs that function -/

/-- An outcome from `s` performs a possible response: if there is one it is given to the request, on
a state that kept the host's side; if there is none the request is refused for a port. -/
inductive Performs (s : State) : Option Response → Host.Outcome State Fault Refusal → Prop
  | answers {u : State} {resp : Response} (hreq : u.requests = s.requests)
      (htr : u.transcript = s.transcript) : Performs s (some resp) (.next (u.respond resp))
  | refuses (p : Port) : Performs s none (.refused (.illFormedOperand p))

/-- Reading a Nat operand, for the machine and for the function alike. -/
theorem Performs.withNat {s : State} {p : Port} {f : Nat → Option Response}
    {k : Nat → Host.Outcome State Fault Refusal} (h : ∀ n, Performs s (f n) (k n)) :
    Performs s ((asNat (s.ports.get p)).bind f) (s.withNat p k) := by
  unfold State.withNat
  cases asNat (s.ports.get p) with
  | none => exact .refuses p
  | some n => exact h n

/-- Reading a Bit operand, for the machine and for the function alike. -/
theorem Performs.withBit {s : State} {p : Port} {f : Bit → Option Response}
    {k : Bit → Host.Outcome State Fault Refusal} (h : ∀ b, Performs s (f b) (k b)) :
    Performs s ((asBit (s.ports.get p)).bind f) (s.withBit p k) := by
  unfold State.withBit
  cases asBit (s.ports.get p) with
  | none => exact .refuses p
  | some b => exact h b

/-- Reading a BitVector operand, for the machine and for the function alike. -/
theorem Performs.withBitVector {s : State} {p : Port} {f : BitVector → Option Response}
    {k : BitVector → Host.Outcome State Fault Refusal} (h : ∀ v, Performs s (f v) (k v)) :
    Performs s ((asBitVector (s.ports.get p)).bind f) (s.withBitVector p k) := by
  unfold State.withBitVector
  cases asBitVector (s.ports.get p) with
  | none => exact .refuses p
  | some v => exact h v

/-- R42: the error and the completion of `ENCW` are decided by the operands alone. -/
theorem execEncw_performs (s : State) : Performs s (pureResponse .encw s.ports) (execEncw s) := by
  refine .withNat fun n => .withNat fun w => ?_
  by_cases h : w < nbytes n
  · simp only [h, if_true]; exact .answers rfl rfl
  · simp only [h, if_false]; exact .answers rfl rfl

/-- R56: `ADD` answers the sum, whatever the Adder's registers held. -/
theorem execAdd_performs (s : State) : Performs s (pureResponse .add s.ports) (execAdd s) := by
  refine .withBitVector fun n => .withBitVector fun m => ?_
  rw [← addRun_result s.work n m]
  exact .answers rfl rfl

/-- R61, R62: `SUB` answers the difference or the open value, whatever the Subtractor's
registers held. -/
theorem execSub_performs (s : State) : Performs s (pureResponse .sub s.ports) (execSub s) := by
  refine .withBitVector fun n => .withBitVector fun m => ?_
  rw [← subRun_result s.work n m]
  exact .answers rfl rfl

/-- R66: `MUL` answers the product, whatever the Multiplier's and the Adder's registers held. -/
theorem execMul_performs (s : State) : Performs s (pureResponse .mul s.ports) (execMul s) := by
  refine .withBitVector fun n => .withBitVector fun m => ?_
  rw [← Work.val_mulRun_bits_acc s.work n m]
  exact .answers rfl rfl

/-- R70, R74: `DIV` answers its error or quotient and remainder, whatever the Divider's and the
Subtractor's registers held. -/
theorem execDiv_performs (s : State) : Performs s (pureResponse .div s.ports) (execDiv s) := by
  refine .withBitVector fun n => .withBitVector fun m => ?_
  by_cases h : val m = 0
  · simp only [h, if_true]; exact .answers rfl rfl
  · simp only [h, if_false, State.onWork_work, Work.divRun_bitsReversed_divider _ n m h]
    exact .answers rfl rfl

/-- R6: every operation's outcome is that of the one function of its operands. -/
theorem exec_performs (i : Instr) (s : State) : Performs s (pureResponse i s.ports) (exec i s) := by
  cases i with
  | enc => exact .withNat fun _ => .answers rfl rfl
  | dec | bits | bitsr => exact .withBitVector fun _ => .answers rfl rfl
  | shl => exact .withBitVector fun _ => .withNat fun _ => .answers rfl rfl
  | fa => exact .withBit fun _ => .withBit fun _ => .withBit fun _ => .answers rfl rfl
  | add => exact execAdd_performs s
  | sub => exact execSub_performs s
  | mul => exact execMul_performs s
  | div => exact execDiv_performs s
  | encw => exact execEncw_performs s

/-- An operation that goes on has given its head request the function's response. -/
theorem exec_next_answers {i : Instr} {s t : State} {r : Request} {rest : List Request}
    (hr : s.requests = r :: rest) (h : exec i s = .next t) :
    ∃ resp, pureResponse i r.ports = some resp ∧ Answers s t r rest resp := by
  have hp := exec_performs i s
  rw [h, State.ports_of_requests hr] at hp
  generalize ho : pureResponse i r.ports = o at hp
  cases hp with
  | answers hreq htr => exact ⟨_, rfl, answers_respond hr hreq htr⟩

/-- An operation for whose operands the function has a response goes on and gives it. -/
theorem exec_answers_of_pureResponse {i : Instr} {s : State} {r : Request} {rest : List Request}
    {resp : Response} (hr : s.requests = r :: rest) (h : pureResponse i r.ports = some resp) :
    ∃ t, exec i s = .next t ∧ Answers s t r rest resp := by
  have hp := exec_performs i s
  rw [State.ports_of_requests hr, h] at hp
  generalize exec i s = o at hp
  cases hp with
  | answers hreq htr => exact ⟨_, rfl, answers_respond hr hreq htr⟩

/-! ### The step -/

/-- R5, R31: an idle unit performs the operation that its head request selects. -/
theorem step_of_decode {s : State} {r : Request} {rest : List Request} {i : Instr}
    (hidle : s.phase = .idle) (hr : s.requests = r :: rest) (hd : decode r.op = .ok i) :
    step s = exec i s := by
  simp [step, State.nextOperation, hidle, hr, hd]

/-- R25: an operation in flight is carried out. -/
theorem step_of_running {s : State} {i : Instr} (h : s.phase = .running i) : step s = exec i s := by
  simp [step, State.nextOperation, h]

/-- An exchange more, with the response `F` names for it, keeps a state following `F`. -/
theorem FollowsFunction.of_answers {F : Instr → Ports → Response} {s t : State} {r : Request}
    {rest : List Request} {i : Instr} (hs : FollowsFunction F s) (hd : decode r.op = .ok i)
    (h : Answers s t r rest (F i r.ports)) : FollowsFunction F t := by
  refine ⟨h.idle, fun e he => ?_⟩
  rw [h.transcript, List.mem_append, List.mem_singleton] at he
  rcases he with hold | rfl
  · exact hs.exchanges e hold
  · exact ⟨i, hd, rfl⟩

/-- `pureResponse` made total. An ill-formed request gets no response (R35), so what stands for it
here, `OK` without a result, is never given. -/
def totalResponse (i : Instr) (p : Ports) : Response :=
  (pureResponse i p).getD ⟨.ok, none, none⟩

/-- Every step keeps a state following the one function. -/
theorem FollowsFunction.step_totalResponse {s t : State} (hs : FollowsFunction totalResponse s)
    (h : step s = .next t) : FollowsFunction totalResponse t := by
  rcases step_cases h with ⟨i, hrun, -⟩ | ⟨-, -, rfl⟩ | ⟨i, r, rest, -, hr, hd, hexec⟩
  · exact absurd (hs.idle.symm.trans hrun) (by simp)
  · exact hs
  · obtain ⟨resp, hresp, hans⟩ := exec_next_answers hr hexec
    have hF : totalResponse i r.ports = resp := by simp [totalResponse, hresp]
    exact hs.of_answers hd (hF ▸ hans)

/-! ### The statements -/

/-- Settles O46: the function is `totalResponse`, the plain arithmetic that the circuits compute. -/
theorem oneFunctionAnswersEveryRequest : Obligations.OneFunctionAnswersEveryRequest :=
  ⟨totalResponse, fun i p q h => by simp only [totalResponse, pureResponse_congr h],
    fun _ _ => FollowsFunction.step_totalResponse⟩

/-- Settles O39: both states answer with what `pureResponse` gives for the shared operands. -/
theorem equalRequestsGiveEqualResponses : Obligations.EqualRequestsGiveEqualResponses := by
  intro s s' r r' rest rest' i t hidle hidle' hr hr' hd hd' hsame hstep
  rw [step_of_decode hidle hr hd] at hstep
  obtain ⟨resp, hresp, hans⟩ := exec_next_answers hr hstep
  obtain ⟨t', hexec', hans'⟩ :=
    exec_answers_of_pureResponse hr' ((pureResponse_congr hsame).symm.trans hresp)
  exact ⟨resp, t', hans, (step_of_decode hidle' hr' hd').trans hexec', hans'⟩

/-- Settles O4, by what the step does next in either phase. -/
theorem stepRunsTheSelectedOperation : Obligations.StepRunsTheSelectedOperation :=
  ⟨fun _ _ _ _ => step_of_decode, fun _ _ => step_of_running⟩

end Sys2Proof.Machine

end

/-! PROOFS. The statements of 10_state.md: the phase after a step (R10, R88). -/

section

namespace Sys2Proof.Machine

/-- R85, R88: an outcome that goes on ends with a response, a completion or an error alike, and giving
one leaves the hardware `Idle`. -/
theorem Performs.idle {s t : State} {o : Option Response} (h : Performs s o (.next t)) :
    t.phase = .idle := by
  cases h with
  | answers => exact State.respond_phase ..

/-- R10: an operation that goes on ends `Idle`, in whatever phase it was carried out and whether or not
a request is on the ports. -/
theorem exec_next_idle {i : Instr} {s t : State} (h : exec i s = .next t) : t.phase = .idle := by
  have hp := exec_performs i s
  rw [h] at hp
  exact hp.idle

/-- Settles O38: a step carries out an operation, or finds the unit `Idle` with nothing requested and
leaves it so. -/
theorem everyStepEndsIdle : Obligations.EveryStepEndsIdle := by
  intro s t h
  rcases step_cases h with ⟨i, -, hexec⟩ | ⟨hidle, -, rfl⟩ | ⟨i, r, rest, -, -, -, hexec⟩
  · exact exec_next_idle hexec
  · exact hidle
  · exact exec_next_idle hexec

end Sys2Proof.Machine

end

/-! PROOFS. The statements of 20_memory.md: the order of the bits within a view (R21) and of the
requests and their responses (R25). -/

section

namespace Sys2Proof.Machine

/-! ### The bit order of the two views -/

/-- R21: position `p` of the forward view is `bit(val(v), p)`, as a number. -/
theorem bits_getElem_toNat (v : BitVector) (p : Nat) (h : p < (bits v).length) :
    ((bits v)[p]'h).toNat = val v / 2 ^ p % 2 := by
  have hbit : (bits v)[p]'h = (val v).testBit p := by
    rw [← bitAt_bits, bitAt, List.getD_eq_getElem _ _ h]
  rw [hbit, Nat.toNat_testBit]

/-- A bit sequence's value is the sum of its bits, position `p` with weight `2^p`. -/
theorem bitsVal_eq_sum (xs : BitSeq) :
    bitsVal xs = ∑ p ∈ Finset.range xs.length, (xs.getD p false).toNat * 2 ^ p := by
  induction xs with
  | nil => rfl
  | cons x xs ih =>
    have hshift : ∑ p ∈ Finset.range xs.length, (xs.getD p false).toNat * 2 ^ (p + 1)
        = 2 * bitsVal xs := by
      rw [ih, Finset.mul_sum]
      exact Finset.sum_congr rfl fun p _ => by ring
    simp [Finset.sum_range_succ', bitsVal, ← hshift, add_comm]

/-- R45: position `p` of the reversed view is position `bitlen - 1 - p` of the forward view. -/
theorem bitsReversed_getElem_toNat (v : BitVector) (p : Nat) (h : p < (bitsReversed v).length) :
    ((bitsReversed v)[p]'h).toNat = val v / 2 ^ (bitlen v - 1 - p) % 2 := by
  simp only [bitsReversed, List.getElem_reverse, bits_getElem_toNat, bitlen]

/-- Settles O18: the forward view position by position and as a weighted sum, and its reverse. -/
theorem forwardViewIsLeastSignificantFirst : Obligations.ForwardViewIsLeastSignificantFirst :=
  fun v => ⟨bits_getElem_toNat v, (bitsVal_bits v).symm.trans (bitsVal_eq_sum (bits v)),
    bitsReversed_getElem_toNat v⟩

/-! ### The order of the requests -/

/-- R25: from `s` to `t` the head request, if there is one, leaves the waiting list and ends the
transcript with the response `resp`; with no request waiting, nothing moves. -/
structure MovesHead (s t : State) (resp : Response) : Prop where
  requests : t.requests = s.requests.drop 1
  transcript : t.transcript = s.transcript ++ (s.requests.take 1).map (fun r => ⟨r, resp⟩)

/-- R25: an outcome that goes on has given one response, to the head request. -/
theorem Performs.movesHead {s t : State} {o : Option Response} (h : Performs s o (.next t)) :
    ∃ resp, MovesHead s t resp := by
  cases h with
  | @answers u resp hreq htr => exact ⟨resp, by simp [hreq], by simp [hreq, htr]⟩

/-- R25: a step carries out an operation, or finds nothing requested and moves nothing. -/
theorem step_movesHead {s t : State} (h : step s = .next t) : ∃ resp, MovesHead s t resp := by
  rcases step_cases h with ⟨i, -, hexec⟩ | ⟨-, hnone, rfl⟩ | ⟨i, r, rest, -, -, -, hexec⟩
  · exact (hexec ▸ exec_performs i s).movesHead
  · exact ⟨⟨.ok, none, none⟩, by simp [hnone], by simp [hnone]⟩
  · exact (hexec ▸ exec_performs i s).movesHead

/-- What is dropped from the waiting list is what is added to the transcript. -/
theorem MovesHead.order {s t : State} {resp : Response} (h : MovesHead s t resp) :
    t.transcript.map Exchange.request ++ t.requests
      = s.transcript.map Exchange.request ++ s.requests := by
  have hmoved : ((s.requests.take 1).map fun r => (⟨r, resp⟩ : Exchange)).map Exchange.request
      = s.requests.take 1 := by simp [Function.comp_def]
  rw [h.transcript, h.requests, List.map_append, hmoved, List.append_assoc, List.take_append_drop]

/-- Settles O40: a step moves the head request, which keeps the order and adds its one exchange. -/
theorem requestsArePerformedInOrder : Obligations.RequestsArePerformedInOrder := by
  intro s t h
  obtain ⟨resp, hmoves⟩ := step_movesHead h
  exact ⟨hmoves.order, _, hmoves.transcript, by simp⟩

/-- An idle unit whose step goes on has performed the operation its head request selects, and given it
the one function's response. -/
theorem step_next_answers {s t : State} {r : Request} {rest : List Request}
    (hidle : s.phase = .idle) (hr : s.requests = r :: rest) (h : step s = .next t) :
    ∃ i resp, decode r.op = .ok i ∧ pureResponse i r.ports = some resp ∧
      Answers s t r rest resp := by
  rcases step_cases h with ⟨i, hrun, -⟩ | ⟨-, hnone, -⟩ | ⟨i, r', rest', -, hr', hd, hexec⟩
  · simp [hidle] at hrun
  · simp [hr] at hnone
  · obtain ⟨rfl, rfl⟩ : r = r' ∧ rest = rest' := by simpa [hr] using hr'
    obtain ⟨resp, hresp, hans⟩ := exec_next_answers hr hexec
    exact ⟨i, resp, hd, hresp, hans⟩

/-- An idle unit goes on and gives its head request the one function's response, when there is one. -/
theorem step_answers_of_pureResponse {s : State} {r : Request} {rest : List Request} {i : Instr}
    {resp : Response} (hidle : s.phase = .idle) (hr : s.requests = r :: rest)
    (hd : decode r.op = .ok i) (h : pureResponse i r.ports = some resp) :
    ∃ t, step s = .next t ∧ Answers s t r rest resp := by
  rw [step_of_decode hidle hr hd]
  exact exec_answers_of_pureResponse hr h

/-- Two answers in a row end the transcript with their two exchanges. -/
theorem Answers.transcript_two {s u t : State} {r q : Request} {rest rest' : List Request}
    {x y : Response} (hr : Answers s u r rest x) (hq : Answers u t q rest' y) :
    t.transcript = s.transcript ++ [⟨r, x⟩, ⟨q, y⟩] := by
  rw [hq.transcript, hr.transcript, List.append_assoc]; rfl

/-- Settles O41: each response is the one function's for its own request (R6), so it is the same
whichever request is performed first. -/
theorem orderOfTwoRequestsDoesNotMatter : Obligations.OrderOfTwoRequestsDoesNotMatter := by
  intro s s' u t r q rest hidle hidle' hreq hreq' hu ht
  obtain ⟨i, x, hdr, hx, hsu⟩ := step_next_answers hidle hreq hu
  obtain ⟨j, y, hdq, hy, hut⟩ := step_next_answers hsu.idle hsu.requests ht
  obtain ⟨u', hu', hsu'⟩ := step_answers_of_pureResponse hidle' hreq' hdq hy
  obtain ⟨t', ht', hut'⟩ := step_answers_of_pureResponse hsu'.idle hsu'.requests hdr hx
  exact ⟨x, y, u', t', hsu.transcript_two hut, hu', ht', hsu'.transcript_two hut'⟩

end Sys2Proof.Machine

end

/-! PROOFS. The statements of 30_encoding.md: the select codes (R31, R34), which requests are performed
and which refused (R34, R35), and the form of every response (R33). -/

section

namespace Sys2Proof.Machine

/-! ### The decoder -/

/-- R31: every row of the table compares all four bits, with the code that the encoder gives its
operation. -/
theorem mask_code_of_mem_opcodeTable :
    ∀ row ∈ opcodeTable, row.mask = 0xF#4 ∧ row.code = encode row.instr := by decide

/-- R31: a row of the table matches its operation's code and no other. -/
theorem matches_iff_of_mem_opcodeTable {row : OpcodeRow} (h : row ∈ opcodeTable) (op : BitVec 4) :
    row.matches op = true ↔ encode row.instr = op := by
  obtain ⟨hmask, hcode⟩ := mask_code_of_mem_opcodeTable row h
  have hall : op &&& 0xF#4 = op := BitVec.and_allOnes
  rw [OpcodeRow.matches, hmask, hall, hcode, beq_iff_eq, eq_comm]

/-- R31: every operation has a row of the table. -/
theorem exists_mem_opcodeTable (i : Instr) : ∃ row ∈ opcodeTable, row.instr = i := by
  cases i <;> decide

/-- R31: every operation's select code decodes to it in a build that has it. -/
theorem roundTrip : ∀ i : Instr, Laws.RoundTrip.Statement i
  | .enc => Laws.RoundTrip.enc
  | .dec => Laws.RoundTrip.dec
  | .bits => Laws.RoundTrip.bits
  | .bitsr => Laws.RoundTrip.bitsr
  | .shl => Laws.RoundTrip.shl
  | .fa => Laws.RoundTrip.fa
  | .add => Laws.RoundTrip.add
  | .sub => Laws.RoundTrip.sub
  | .mul => Laws.RoundTrip.mul
  | .div => Laws.RoundTrip.div
  | .encw => Laws.RoundTrip.encw

/-- R31, D13: this hardware has all eleven operations, so each select code decodes to its own. -/
theorem decode_encode (i : Instr) : decode (encode i) = .ok i :=
  roundTrip i Config.hasEncw (by cases i <;> rfl)

/-- R31: no two operations share a select code. -/
theorem encode_injective {i j : Instr} (h : encode i = encode j) : i = j := by
  have hdec : decode (encode i) = .ok j := by rw [h, decode_encode j]
  exact Except.ok.inj ((decode_encode i).symm.trans hdec)

/-- R31: the eleven select codes are below 0xB. -/
theorem encode_lt (i : Instr) : encode i < 0xB#4 := by
  cases i <;> decide

/-- All that decoding can do (R31, R34): the code is that of an operation the build has, which is the
answer; or it is that of none, and the answer is `invalid`. -/
theorem decodeWith_cases (hasEncw : Bool) (op : BitVec 4) :
    (∃ i, encode i = op ∧ i.existsWith hasEncw = true ∧ decodeWith hasEncw op = .ok i) ∨
    ((∀ i, encode i = op → i.existsWith hasEncw = false) ∧
      decodeWith hasEncw op = .error (.invalid op)) := by
  unfold decodeWith
  split
  · next row hfind =>
    have hrow := List.find?_some hfind
    obtain ⟨hmatch, hexists⟩ := Bool.and_eq_true_iff.mp hrow
    have hmem := List.mem_of_find?_eq_some hfind
    exact .inl ⟨row.instr, (matches_iff_of_mem_opcodeTable hmem op).mp hmatch, hexists, rfl⟩
  · next hnone =>
    refine .inr ⟨fun i hop => ?_, rfl⟩
    obtain ⟨row, hmem, rfl⟩ := exists_mem_opcodeTable i
    have hmatch := (matches_iff_of_mem_opcodeTable hmem op).mpr hop
    simpa [hmatch] using List.find?_eq_none.mp hnone row hmem

/-! ### Which requests are performed -/

/-- R35: the operands of a request are well-formed when each of the three ports is. -/
theorem operandsWf_iff (i : Instr) (ports : Ports) :
    i.operandsWf ports = true ↔ ∀ p, (i.operandType p).admits (ports.get p) = true := by
  constructor
  · intro h p
    simp only [Instr.operandsWf, Bool.and_eq_true] at h
    obtain ⟨⟨ha, hb⟩, hc⟩ := h
    cases p with
    | a => exact ha
    | b => exact hb
    | c => exact hc
  · intro h
    simp [Instr.operandsWf, h]

/-- An outcome that goes on only from well-formed operands and refuses only for an ill-formed one
(R35, D4). -/
inductive ChecksOperands (i : Instr) (s : State) : Host.Outcome State Fault Refusal → Prop
  | performed {t : State} (ha : (i.operandType .a).admits (s.ports.get .a) = true)
      (hb : (i.operandType .b).admits (s.ports.get .b) = true)
      (hc : (i.operandType .c).admits (s.ports.get .c) = true) : ChecksOperands i s (.next t)
  | refused {p : Port} (h : (i.operandType p).admits (s.ports.get p) = false) :
      ChecksOperands i s (.refused (.illFormedOperand p))

/-- Reading an operand of the port's own type, `read` being one of the three readers below: what
follows need check only the other ports. -/
theorem ChecksOperands.of_read {α : Type} {i : Instr} {s : State} {p : Port} {ty : OperandType}
    {carried : α → PortValue}
    {read : (α → Host.Outcome State Fault Refusal) → Host.Outcome State Fault Refusal}
    {k : α → Host.Outcome State Fault Refusal} (hty : i.operandType p = ty)
    (hread : (∃ x, s.ports.get p = carried x ∧ ty.admits (s.ports.get p) = true ∧
        ∀ k, read k = k x) ∨
      (ty.admits (s.ports.get p) = false ∧ ∀ k, read k = .refused (.illFormedOperand p)))
    (h : ∀ x, ty.admits (s.ports.get p) = true → ChecksOperands i s (k x)) :
    ChecksOperands i s (read k) := by
  rcases hread with ⟨x, -, hadm, hk⟩ | ⟨hill, hk⟩
  · exact hk k ▸ h x hadm
  · exact hk k ▸ .refused (hty ▸ hill)

/-- Reading a port that R32 gives the type Nat. -/
theorem ChecksOperands.withNat {i : Instr} {s : State} {p : Port}
    {k : Nat → Host.Outcome State Fault Refusal} (hty : i.operandType p = .nat)
    (h : ∀ x, OperandType.nat.admits (s.ports.get p) = true → ChecksOperands i s (k x)) :
    ChecksOperands i s (s.withNat p k) :=
  .of_read hty (withNat_cases s p) h

/-- Reading a port that R32 gives the type Bit. -/
theorem ChecksOperands.withBit {i : Instr} {s : State} {p : Port}
    {k : Bit → Host.Outcome State Fault Refusal} (hty : i.operandType p = .bit)
    (h : ∀ x, OperandType.bit.admits (s.ports.get p) = true → ChecksOperands i s (k x)) :
    ChecksOperands i s (s.withBit p k) :=
  .of_read hty (withBit_cases s p) h

/-- Reading a port that R32 gives the type BitVector. -/
theorem ChecksOperands.withBitVector {i : Instr} {s : State} {p : Port}
    {k : BitVector → Host.Outcome State Fault Refusal} (hty : i.operandType p = .bitVector)
    (h : ∀ x, OperandType.bitVector.admits (s.ports.get p) = true → ChecksOperands i s (k x)) :
    ChecksOperands i s (s.withBitVector p k) :=
  .of_read hty (withBitVector_cases s p) h

/-- R35: every operation reads exactly the ports that R32 gives it a type for. -/
theorem exec_checksOperands (i : Instr) (s : State) : ChecksOperands i s (exec i s) := by
  have unused (x : PortValue) := admits_unused x
  cases i with
  | enc => exact .withNat rfl fun _ ha => .performed ha (unused _) (unused _)
  | dec | bits | bitsr => exact .withBitVector rfl fun _ ha => .performed ha (unused _) (unused _)
  | shl =>
    exact .withBitVector rfl fun _ ha => .withNat rfl fun _ hb => .performed ha hb (unused _)
  | fa =>
    exact .withBit rfl fun _ ha => .withBit rfl fun _ hb => .withBit rfl fun _ hc =>
      .performed ha hb hc
  | add | sub | mul =>
    exact .withBitVector rfl fun _ ha => .withBitVector rfl fun _ hb =>
      .performed ha hb (unused _)
  | div =>
    refine .withBitVector rfl fun _ ha => .withBitVector rfl fun _ hb => ?_
    dsimp only
    split <;> exact .performed ha hb (unused _)
  | encw =>
    refine .withNat rfl fun _ ha => .withNat rfl fun _ hb => ?_
    dsimp only
    split <;> exact .performed ha hb (unused _)

/-! ### The form of a response -/

/-- R33: every operation can complete. -/
theorem ok_mem_possibleStatuses (i : Instr) : Status.ok ∈ possibleStatuses i := by
  cases i <;> decide

/-- R33: a completion conforms when its results do. -/
theorem conformsTo_ok {i : Instr} {y0 y1 : Option Value} (h : resultsConform i y0 y1) :
    ConformsTo i ⟨.ok, y0, y1⟩ :=
  ⟨ok_mem_possibleStatuses i, h⟩

/-- R85: an error response conforms when its operation raises that error; it carries no result. -/
theorem conformsTo_error {i : Instr} {e : ErrorKind} (h : e.status ∈ possibleStatuses i) :
    ConformsTo i (.error e) := by
  have hne : e.status ≠ .ok := by cases e <;> decide
  exact ⟨h, by simp [Response.error, hne]⟩

/-- What is read from a port conforms when it does for every value read. -/
theorem conformsTo_of_bind {α : Type} {i : Instr} {x : Option α} {f : α → Option Response}
    (h : ∀ a, ∀ resp ∈ f a, ConformsTo i resp) : ∀ resp ∈ x.bind f, ConformsTo i resp := by
  intro resp hresp
  obtain ⟨a, -, ha⟩ := Option.bind_eq_some_iff.mp hresp
  exact h a resp ha

/-- R33: the one function gives every operation a response of its own form. -/
theorem pureResponse_conformsTo (i : Instr) (p : Ports) :
    ∀ resp ∈ pureResponse i p, ConformsTo i resp := by
  cases i with
  | enc | dec | bits | bitsr =>
    refine conformsTo_of_bind fun _ => ?_
    rintro _ ⟨⟩
    exact conformsTo_ok ⟨⟨_, rfl⟩, rfl⟩
  | shl | add | sub | mul =>
    refine conformsTo_of_bind fun _ => conformsTo_of_bind fun _ => ?_
    rintro _ ⟨⟩
    exact conformsTo_ok ⟨⟨_, rfl⟩, rfl⟩
  | fa =>
    refine conformsTo_of_bind fun _ => conformsTo_of_bind fun _ => conformsTo_of_bind fun _ => ?_
    rintro _ ⟨⟩
    exact conformsTo_ok ⟨⟨_, rfl⟩, _, rfl⟩
  | div =>
    refine conformsTo_of_bind fun _ => conformsTo_of_bind fun _ => ?_
    rintro _ ⟨⟩
    split
    · exact conformsTo_error (by decide)
    · exact conformsTo_ok ⟨⟨_, rfl⟩, _, rfl⟩
  | encw =>
    refine conformsTo_of_bind fun _ => conformsTo_of_bind fun _ => ?_
    rintro _ ⟨⟩
    split
    · exact conformsTo_error (by decide)
    · exact conformsTo_ok ⟨⟨_, rfl⟩, rfl⟩

/-! ### The statements -/

/-- Settles O8: the operands are well-formed exactly when no port read is ill-formed. -/
theorem exactlyWellFormedRequestsArePerformed :
    Obligations.ExactlyWellFormedRequestsArePerformed := by
  intro i s
  have hwf := operandsWf_iff i s.ports
  have hchecks := exec_checksOperands i s
  generalize exec i s = o at hchecks
  cases hchecks with
  | @performed t ha hb hc =>
    have hall : i.operandsWf s.ports = true := hwf.mpr fun p => by cases p <;> assumption
    exact ⟨fun _ => ⟨t, rfl⟩, fun hnot => absurd (hall.symm.trans hnot) (by decide)⟩
  | @refused p hill =>
    exact ⟨fun hall => absurd ((hwf.mp hall p).symm.trans hill) (by decide),
      fun _ => ⟨p, hill, rfl⟩⟩

/-- Settles O37: the response given is the one function's, which conforms. -/
theorem everyResponseConformsToItsOperation : Obligations.EveryResponseConformsToItsOperation := by
  intro i s t r rest hr h
  obtain ⟨resp, hresp, hans⟩ := exec_next_answers hr h
  exact ⟨resp, hans, pureResponse_conformsTo i r.ports resp hresp⟩

/-- Settles O3: by what decoding can do, since no two operations share a code. -/
theorem decodeIsTheInverseOfEncode : Obligations.DecodeIsTheInverseOfEncode := by
  intro hasEncw op i
  rcases decodeWith_cases hasEncw op with ⟨j, hop, hexists, hd⟩ | ⟨hnone, hd⟩
  · rw [hd]
    constructor
    · rintro ⟨⟩; exact ⟨hop, hexists⟩
    · rintro ⟨hi, -⟩; rw [encode_injective (hi.trans hop.symm)]
  · rw [hd]
    constructor
    · rintro ⟨⟩
    · rintro ⟨hi, hexists⟩; exact absurd ((hnone i hi).symm.trans hexists) (by decide)

/-- Settles O1: each code is the one that the encoder gives its operation. -/
theorem selectCodesNameTheirOperations : Obligations.SelectCodesNameTheirOperations :=
  ⟨decode_encode .enc, decode_encode .dec, decode_encode .bits, decode_encode .bitsr,
    decode_encode .shl, decode_encode .fa, decode_encode .add, decode_encode .sub,
    decode_encode .mul, decode_encode .div, decode_encode .encw⟩

/-- Settles O2: a code from 0xB up is no operation's, and 0xA is `ENCW`'s alone. -/
theorem reservedSelectCodesAreInvalid : Obligations.ReservedSelectCodesAreInvalid := by
  constructor
  · intro hasEncw op hop
    rcases decodeWith_cases hasEncw op with ⟨i, rfl, -, -⟩ | ⟨-, hd⟩
    · exact absurd (encode_lt i) (BitVec.not_lt.mpr hop)
    · exact hd
  · rcases decodeWith_cases false 0xA#4 with ⟨i, hi, hexists, -⟩ | ⟨-, hd⟩
    · obtain rfl : i = .encw := encode_injective hi
      cases hexists
    · exact hd

/-- Settles O5: a code that decodes to no operation is `invalid`, and the step names it. -/
theorem stepRefusesAReservedSelectCode : Obligations.StepRefusesAReservedSelectCode := by
  intro s r rest hidle hr hnone
  cases hd : decode r.op with
  | ok i => exact absurd hd (hnone i)
  | error e =>
    obtain rfl := decode_eq_error hd
    simp [step, State.nextOperation, hidle, hr, hd]

end Sys2Proof.Machine

end

/-! PROOFS. The statements of 40_bitvector.md: the canonical encoding and its value (R40 to R43, R47),
the forward bit view and the bit length (R44, R45, R48), the shift (R46), and what `ENC`, `DEC`,
`BITS`, `BITSR`, `SHL` and `ENCW` answer. -/

section

namespace Sys2Proof.Machine

/-! ### The canonical encoding -/

/-- R40: byte `j` of a byte sequence is byte `j` of its value. -/
theorem valBytes_getElem_toNat (bs : List Byte) (j : Nat) (h : j < bs.length) :
    (bs[j]'h).toNat = valBytes bs / 256 ^ j % 256 := by
  induction bs generalizing j with
  | nil => simp at h
  | cons b bs ih =>
    have hb := b.isLt
    cases j with
    | zero => simp only [List.getElem_cons_zero, valBytes]; omega
    | succ j =>
      have htail : valBytes (b :: bs) / 256 = valBytes bs := by rw [valBytes]; omega
      rw [List.getElem_cons_succ, ih, pow_succ', ← Nat.div_div_eq_div_mul, htail]

/-- R43: a byte sequence's value is the sum of its bytes, byte `j` with weight `256^j`. -/
theorem valBytes_eq_sum (bs : List Byte) :
    valBytes bs = ∑ j ∈ Finset.range bs.length, (bs.getD j 0#8).toNat * 256 ^ j := by
  induction bs with
  | nil => rfl
  | cons b bs ih =>
    have hshift : ∑ j ∈ Finset.range bs.length, (bs.getD j 0#8).toNat * 256 ^ (j + 1)
        = 256 * valBytes bs := by
      rw [ih, Finset.mul_sum]
      exact Finset.sum_congr rfl fun j _ => by ring
    rw [List.length_cons, Finset.sum_range_succ', valBytes, add_comm, ← hshift]
    simp

/-- R40, R48: a BitVector's bytes are the canonical encoding of its value. -/
theorem encodesCanonically_val (v : BitVector) : EncodesCanonically (val v) v.bytes where
  nonempty := bytes_length_pos v
  fits := valBytes_lt v.bytes
  least := bytes_length_le_of_val_lt v
  byte := valBytes_getElem_toNat v.bytes

/-- R41: `enc(n)` is the canonical encoding of `n`. -/
theorem encodesCanonically_enc (n : Nat) : EncodesCanonically n (enc n).bytes := by
  simpa only [val_enc] using encodesCanonically_val (enc n)

/-- R48: `[0x00]` is the only BitVector of value 0. -/
theorem bytes_of_val_eq_zero {v : BitVector} (h : val v = 0) : v.bytes = [0#8] := by
  rw [← enc_val v, h]; rfl

/-- R40: the most significant byte of a BitVector of another value than 0 is not 0. -/
theorem bytes_getLast_of_val_ne_zero {v : BitVector} (h : val v ≠ 0) :
    ∃ b, v.bytes.getLast? = some b ∧ b ≠ 0#8 := by
  rcases bytes_canonical_cases v with hone | hlast
  · obtain ⟨b, hb⟩ := List.length_eq_one_iff.mp hone
    refine ⟨b, by simp [hb], ?_⟩
    rintro rfl
    exact h (by simp [val, hb, valBytes])
  · exact hlast

/-! ### The bit length -/

/-- R48: the bit length of a value is its size in binary digits, 0 having one bit. -/
theorem isBitLength_iff (n k : Nat) : IsBitLength n k ↔ k = max 1 n.size := by
  unfold IsBitLength
  split_ifs with hn
  · simp [hn]
  · simp only [← Nat.size_le]
    constructor
    · rintro ⟨hpos, hfits, hleast⟩
      have := hleast (max 1 n.size) (le_max_left ..) (le_max_right ..)
      omega
    · rintro rfl
      exact ⟨le_max_left .., le_max_right .., fun _ => max_le⟩

/-- A bit sequence whose top bit is 1 is as long as the size of its value. -/
theorem length_eq_size_bitsVal {xs : BitSeq} (h : xs.getLast? = some true) :
    xs.length = (bitsVal xs).size := by
  have hpos : 0 < xs.length := List.length_pos_of_ne_nil (by rintro rfl; cases h)
  have hlt : (bitsVal xs).size ≤ xs.length := Nat.size_le.mpr (bitsVal_lt xs)
  have hge : xs.length - 1 < (bitsVal xs).size := Nat.lt_size.mpr (two_pow_le_bitsVal xs h)
  omega

/-- R48: `bitlen(v)` is the size of `val(v)`, and 1 for the value 0. -/
theorem bitlen_eq (v : BitVector) : bitlen v = max 1 (val v).size := by
  by_cases h : val v = 0
  · simp [bitlen, bits, h]
  · have hlen : bitlen v = (val v).size := by
      rw [bitlen, length_eq_size_bitsVal (bits_getLast v h), bitsVal_bits]
    rw [← hlen, max_eq_right (bitlen_pos v)]

/-- R48: `bitlen(v)` is the bit length of `val(v)`. -/
theorem isBitLength_bitlen (v : BitVector) : IsBitLength (val v) (bitlen v) :=
  (isBitLength_iff ..).mpr (bitlen_eq v)

/-- R46: shifting a value other than 0 adds the amount to its bit length; nothing is shifted out. -/
theorem bitlen_shl {v : BitVector} (h : 0 < val v) (k : Nat) :
    bitlen (shl v k) = bitlen v + k := by
  have hpos : 0 < (val v).size := Nat.size_pos.mpr h
  rw [bitlen_eq, bitlen_eq, shl, val_enc, ← Nat.shiftLeft_eq, Nat.size_shiftLeft h.ne']
  omega

/-! ### The forward view byte by byte -/

/-- R21: a bit sequence whose top bit is 1 is the forward view of its value. -/
theorem isBitView_bitsVal {xs : BitSeq} (h : xs.getLast? = some true) :
    IsBitView (bitsVal xs) xs where
  length := by
    have hpos : 0 < xs.length := List.length_pos_of_ne_nil (by rintro rfl; cases h)
    rw [isBitLength_iff, ← length_eq_size_bitsVal h, max_eq_right hpos]
  bit j hj := by
    rw [← Nat.toNat_testBit, ← bitAt_eq_testBit, bitAt, List.getD_eq_getElem _ _ hj]

/-- R44: the significant bits of a byte other than 0 are its forward view. -/
theorem isBitView_significantBits {b : Byte} (h : b ≠ 0#8) :
    IsBitView b.toNat (significantBits 8 b.toNat) := by
  have hne : b.toNat ≠ 0 := fun h0 => h (BitVec.eq_of_toNat_eq h0)
  have hview := isBitView_bitsVal (significantBits_getLast 8 b.toNat b.isLt hne)
  rwa [bitsVal_significantBits 8 b.toNat b.isLt] at hview

/-- R44: all eight bits of every byte but the last, and the significant bits of that one. -/
theorem bitsOfBytes_concat (lower : List Byte) (top : Byte) :
    bitsOfBytes (lower ++ [top]) = lower.flatMap byteBits ++ significantBits 8 top.toNat := by
  induction lower with
  | nil => rfl
  | cons b lower ih =>
    rw [List.cons_append, bitsOfBytes_cons (by simp), ih, List.flatMap_cons, List.append_assoc]

/-- R44: the view of a value other than 0, in terms of the bytes. -/
theorem bits_of_bytes {v : BitVector} {lower : List Byte} {top : Byte} (hv : val v ≠ 0)
    (h : v.bytes = lower ++ [top]) :
    IsBitView top.toNat (significantBits 8 top.toNat) ∧
      bits v = lower.flatMap byteBits ++ significantBits 8 top.toNat := by
  obtain ⟨b, hlast, hb⟩ := bytes_getLast_of_val_ne_zero hv
  obtain rfl : top = b := by simpa [h] using hlast
  exact ⟨isBitView_significantBits hb, by rw [bits, if_neg hv, h, bitsOfBytes_concat]⟩

/-- R48: eight bits for every byte but the last, and as many as the last byte's own bit length. -/
theorem bitlen_of_bytes {v : BitVector} {lower : List Byte} {top : Byte} {t : Nat}
    (h : v.bytes = lower ++ [top]) (ht : IsBitLength top.toNat t) :
    bitlen v = 8 * (v.bytes.length - 1) + t := by
  rw [isBitLength_iff] at ht
  by_cases hv : val v = 0
  · have hzero : lower ++ [top] = [0#8] := h ▸ bytes_of_val_eq_zero hv
    obtain ⟨rfl, rfl⟩ : lower = [] ∧ top = 0#8 := by
      simpa [List.append_eq_singleton_iff] using hzero
    simp [bitlen_eq, hv, h, ht]
  · obtain ⟨hview, hbits⟩ := bits_of_bytes hv h
    have hsig := (isBitLength_iff ..).mp hview.length
    simp [bitlen, hbits, h, byteBits_length, hsig, ht, List.length_flatMap, mul_comm]

/-! ### The operations -/

/-- The operations that have transient registers (R13 to R15). -/
def hasTransientRegisters : Instr → Bool
  | .add | .sub | .mul | .div => true
  | .enc | .dec | .bits | .bitsr | .shl | .fa | .encw => false

/-- An operation without transient registers leaves the storage of all of them alone, an error of
`ENCW` included (assumption 3). -/
theorem exec_next_keepsStorage {i : Instr} {s t : State} (hi : hasTransientRegisters i = false)
    (h : exec i s = .next t) : KeepsStorage s t := by
  cases i with
  | add | sub | mul | div => cases hi
  | enc =>
    obtain ⟨n, -, hn⟩ := withNat_next h
    cases hn; exact ⟨rfl, rfl⟩
  | dec | bits | bitsr =>
    obtain ⟨v, -, hv⟩ := withBitVector_next h
    cases hv; exact ⟨rfl, rfl⟩
  | shl =>
    obtain ⟨v, -, hv⟩ := withBitVector_next h
    obtain ⟨k, -, hk⟩ := withNat_next hv
    cases hk; exact ⟨rfl, rfl⟩
  | fa =>
    obtain ⟨a, -, ha⟩ := withBit_next h
    obtain ⟨b, -, hb⟩ := withBit_next ha
    obtain ⟨c, -, hc⟩ := withBit_next hb
    cases hc; exact ⟨rfl, rfl⟩
  | encw =>
    obtain ⟨n, -, hn⟩ := withNat_next h
    obtain ⟨w, -, hw⟩ := withNat_next hn
    by_cases hlt : w < nbytes n
    · simp only [hlt, if_true] at hw; cases hw; exact ⟨rfl, rfl⟩
    · simp only [hlt, if_false] at hw; cases hw; exact ⟨rfl, rfl⟩

/-- An operation without transient registers answers what the one function of R6 says, and leaves the
storage as it is. -/
theorem exec_answers_keepsStorage {i : Instr} {s : State} {r : Request} {rest : List Request}
    {resp : Response} (hi : hasTransientRegisters i = false) (hr : s.requests = r :: rest)
    (h : pureResponse i r.ports = some resp) :
    ∃ t, exec i s = .next t ∧ Answers s t r rest resp ∧ KeepsStorage s t := by
  obtain ⟨t, hexec, hans⟩ := exec_answers_of_pureResponse hr h
  exact ⟨t, hexec, hans, exec_next_keepsStorage hi hexec⟩

/-! ### The statements -/

/-- Settles O9: `ENC` answers `enc n`, whose bytes are canonical. -/
theorem encGivesTheCanonicalEncoding : Obligations.EncGivesTheCanonicalEncoding :=
  ⟨rfl, encodesCanonically_enc, fun _ _ _ _ hr ha =>
    exec_answers_keepsStorage rfl hr (by simp [pureResponse, Ports.get, ha])⟩

/-- Settles O10: the byte count decides between the error and the encoding, and the decoder has the
operation exactly when the build does (O3). -/
theorem encwChecksTheByteCount : Obligations.EncwChecksTheByteCount := by
  refine ⟨rfl, fun hasEncw => ?_, lt_nbytes_iff, fun s r rest n w hr ha hb => ?_⟩
  · simp [decodeIsTheInverseOfEncode hasEncw, Instr.existsWith]
  · have hresp : pureResponse .encw r.ports = some
        (if w < nbytes n then .error .outOfRange else .okOne (.bitVector (enc n))) := by
      simp [pureResponse, Ports.get, ha, hb]
    obtain ⟨t, hexec, hans, hkeeps⟩ := exec_answers_keepsStorage rfl hr hresp
    exact ⟨t, hexec, hkeeps, hans⟩

/-- Settles O11: the value is the weighted sum of the bytes, and undoes the encoding. -/
theorem decGivesTheValue : Obligations.DecGivesTheValue :=
  ⟨rfl, fun v => valBytes_eq_sum v.bytes, val_enc, fun _ _ _ _ hr ha =>
    exec_answers_keepsStorage rfl hr (by simp [pureResponse, Ports.get, ha])⟩

/-- Settles O12: the view of zero is the model's own case, any other is read off the bytes. -/
theorem bitsGivesTheForwardView : Obligations.BitsGivesTheForwardView :=
  ⟨rfl, fun _ hv => if_pos hv,
    fun _ _ top hv h => ⟨significantBits 8 top.toNat, bits_of_bytes hv h⟩,
    fun _ _ _ _ hr ha => exec_answers_keepsStorage rfl hr (by simp [pureResponse, Ports.get, ha])⟩

/-- Settles O13: both operations answer from the one view of the operand. -/
theorem bitsrGivesTheReverseOfBits : Obligations.BitsrGivesTheReverseOfBits := by
  refine ⟨rfl, fun s r rest v hr ha => ?_⟩
  have hfwd : pureResponse .bits r.ports = some (.okOne (.bitSeq (bits v))) := by
    simp [pureResponse, Ports.get, ha]
  have hrev : pureResponse .bitsr r.ports = some (.okOne (.bitSeq (bits v).reverse)) := by
    simp [pureResponse, Ports.get, ha, bitsReversed]
  obtain ⟨u, hexecU, hansU⟩ := exec_answers_of_pureResponse hr hfwd
  obtain ⟨t, hexecT, hansT, hkeeps⟩ := exec_answers_keepsStorage rfl hr hrev
  exact ⟨bits v, t, u, hexecU, hansU, hexecT, hansT, hkeeps⟩

/-- Settles O14: the shift answers the encoding of the product. -/
theorem shlGivesTheShiftedValue : Obligations.ShlGivesTheShiftedValue :=
  ⟨rfl, fun _ _ _ _ _ hr ha hb =>
    exec_answers_keepsStorage rfl hr (by simp [pureResponse, Ports.get, ha, hb, shl])⟩

/-- Settles O15: the first two by the round trip, the third by the size of the shifted value. -/
theorem shiftLeftGrowsTheBitLength : Obligations.ShiftLeftGrowsTheBitLength :=
  fun v k => ⟨by rw [shl, pow_zero, mul_one, enc_val], by rw [shl, val_enc, zero_mul],
    fun h => bitlen_shl h k⟩

/-- Settles O16: the laws of the block, each by its own lemma. -/
theorem encodingLaws : Obligations.EncodingLaws :=
  ⟨val_enc, enc_val, rfl, fun n hn => bytes_getLast_of_val_ne_zero (by rw [val_enc]; omega),
    isBitLength_bitlen, fun _ => rfl⟩

/-- Settles O17: the bit length from the value, and from the bytes. -/
theorem bitLengthOfAValue : Obligations.BitLengthOfAValue :=
  ⟨isBitLength_bitlen, fun _ _ _ _ => bitlen_of_bytes⟩

end Sys2Proof.Machine

end

/-! PROOFS. The statements of 41_full_adder.md: the full adder's two equations (R50) and their
arithmetic reading (R52). -/

section

namespace Sys2Proof.Machine

/-- R52: the sum is the parity of the inputs, since the carry counts the rest in twos. -/
theorem fullAdder_sum_toNat (a b cin : Bit) :
    (fullAdder a b cin).sum.toNat = (a.toNat + b.toNat + cin.toNat) % 2 := by
  have hadd := fullAdder_arith a b cin
  have hsum := (fullAdder a b cin).sum.toNat_le
  omega

/-- R52: the carry is the majority of the inputs, since the sum accounts for at most one. -/
theorem fullAdder_carryOut_iff (a b cin : Bit) :
    (fullAdder a b cin).carryOut = true ↔ 2 ≤ a.toNat + b.toNat + cin.toNat := by
  have hadd := fullAdder_arith a b cin
  have hsum := (fullAdder a b cin).sum.toNat_le
  have hcarry := (fullAdder a b cin).carryOut.toNat_le
  rw [← Bool.toNat_eq_one]
  omega

/-- R50: with a bit on each of its three ports `FA` answers the full adder's two outputs, and it
changes no transient register. -/
theorem execFa_answers_keepsStorage {s : State} {r : Request} {rest : List Request} {a b c : Bit}
    (hr : s.requests = r :: rest) (ha : r.ports.a = .ofBit a) (hb : r.ports.b = .ofBit b)
    (hc : r.ports.c = .ofBit c) :
    ∃ t, exec .fa s = .next t ∧
      Answers s t r rest
        (.okTwo (.bit (fullAdder a b c).sum) (.bit (fullAdder a b c).carryOut)) ∧
      KeepsStorage s t :=
  exec_answers_keepsStorage rfl hr (by simp [pureResponse, Ports.get, ha, hb, hc])

/-- Settles O19: the full adder's outputs are R50's two equations by definition. -/
theorem faGivesSumAndCarry : Obligations.FaGivesSumAndCarry :=
  ⟨rfl, fun _ _ _ _ _ _ hr ha hb hc => execFa_answers_keepsStorage hr ha hb hc⟩

/-- Settles O20: the arithmetic of the full adder, read off the answer. -/
theorem faAddsItsInputs : Obligations.FaAddsItsInputs := by
  intro s r rest a b c hr ha hb hc
  obtain ⟨t, hexec, hans, -⟩ := execFa_answers_keepsStorage hr ha hb hc
  exact ⟨t, _, _, hexec, hans, (fullAdder_arith a b c).symm, fullAdder_sum_toNat a b c,
    fullAdder_carryOut_iff a b c⟩

end Sys2Proof.Machine

end

/-! PROOFS. The statements of 42_adder.md: the ripple's invariant (the derivation under R56), the
exact sum and its length (R56), and the laws of addition (R57). -/

section

namespace Sys2Proof.Machine

/-! ### The ripple's invariant -/

/-- R55: the Adder's registers after `k` positions on the operands `n` and `m`, from carry seed 0. -/
def adderRipple (n m : BitVector) (k : Nat) : RippleRegs :=
  RippleRegs.run id (bits n) (bits m) k (RippleRegs.seeded false)

/-- R21: the first `k` positions of a BitVector's view, a missing bit being 0, hold
its value mod `2^k`. -/
theorem bitSum_bits_eq_mod (v : BitVector) (k : Nat) :
    bitSum (bitAt (bits v)) 0 k = val v % 2 ^ k := by
  have hview : bitAt (bits v) = (val v).testBit := funext (bitAt_bits v)
  simp [hview, bitSum_testBit]

theorem adderRipple_i (n m : BitVector) (k : Nat) : (adderRipple n m k).i = k := by
  simpa [adderRipple, RippleRegs.seeded] using
    (RippleRegs.run_arith id (bits n) (bits m) k (RippleRegs.seeded false)).1

theorem adderRipple_result_lt (n m : BitVector) (k : Nat) : (adderRipple n m k).result < 2 ^ k := by
  simpa [adderRipple, RippleRegs.seeded] using
    RippleRegs.run_result_lt id (bits n) (bits m) k (RippleRegs.seeded false) Nat.one_pos

/-- The induction's invariant under R56, for every number of positions. -/
theorem adderRipple_sum (n m : BitVector) (k : Nat) :
    (adderRipple n m k).result + (adderRipple n m k).carry.toNat * 2 ^ k
      = val n % 2 ^ k + val m % 2 ^ k := by
  simpa [adderRipple, RippleRegs.seeded, bitSum_bits_eq_mod] using
    (RippleRegs.run_arith id (bits n) (bits m) k (RippleRegs.seeded false)).2

/-- After as many positions as hold both operands, the carry tells whether the
sum needs one more. -/
theorem adderRipple_carry {n m : BitVector} {k : Nat} (hn : val n < 2 ^ k) (hm : val m < 2 ^ k) :
    (adderRipple n m k).carry = decide (2 ^ k ≤ val n + val m) := by
  have hlt := adderRipple_result_lt n m k
  have hsum := adderRipple_sum n m k
  rw [Nat.mod_eq_of_lt hn, Nat.mod_eq_of_lt hm] at hsum
  cases hc : (adderRipple n m k).carry with
  | false =>
    rw [hc, Bool.toNat_false, zero_mul] at hsum
    exact (decide_eq_false (by omega)).symm
  | true =>
    rw [hc, Bool.toNat_true, one_mul] at hsum
    exact (decide_eq_true (by omega)).symm

/-! ### The length of the sum -/

/-- R48: a BitVector's value fits in as many bits as its view has, or more. -/
theorem val_lt_two_pow_of_bitlen_le {v : BitVector} {k : Nat} (h : bitlen v ≤ k) :
    val v < 2 ^ k :=
  (val_lt_two_pow_bitlen v).trans_le (Nat.pow_le_pow_right two_pos h)

/-- R56: a sum is at least as long as its longer operand, and at most one bit longer. -/
theorem isBitLength_add (n m : BitVector) : IsBitLength (val n + val m)
    (if 2 ^ max (bitlen n) (bitlen m) ≤ val n + val m
      then max (bitlen n) (bitlen m) + 1 else max (bitlen n) (bitlen m)) := by
  rw [isBitLength_iff]
  split_ifs with hcarry
  · have hn := val_lt_two_pow_of_bitlen_le (le_max_left (bitlen n) (bitlen m))
    have hm := val_lt_two_pow_of_bitlen_le (le_max_right (bitlen n) (bitlen m))
    have hge := Nat.lt_size.mpr hcarry
    have hle : (val n + val m).size ≤ max (bitlen n) (bitlen m) + 1 :=
      Nat.size_le.mpr (by rw [pow_succ]; omega)
    omega
  · have hle := Nat.size_le.mpr (not_le.mp hcarry)
    have hn : (val n).size ≤ (val n + val m).size := Nat.size_le_size (Nat.le_add_right ..)
    have hm : (val m).size ≤ (val n + val m).size := Nat.size_le_size (Nat.le_add_left ..)
    rw [bitlen_eq, bitlen_eq] at hle ⊢
    omega

/-! ### The operation -/

/-- An `ADD` that goes on has used no transient registers but the Adder's (assumption 3). -/
theorem exec_add_next_usesAdder {s t : State} (h : exec .add s = .next t) : UsesAdder s t := by
  obtain ⟨n, -, hn⟩ := withBitVector_next h
  obtain ⟨m, -, hm⟩ := withBitVector_next hn
  cases hm
  exact ⟨rfl, rfl, rfl⟩

/-- R56: with BitVectors on its two ports `ADD` answers their sum. -/
theorem exec_add_answers {s : State} {r : Request} {rest : List Request} {n m : BitVector}
    (hr : s.requests = r :: rest) (ha : r.ports.a = .ofBitVector n)
    (hb : r.ports.b = .ofBitVector m) :
    ∃ t, exec .add s = .next t ∧ Answers s t r rest (.okOne (.nat (val n + val m))) :=
  exec_answers_of_pureResponse hr (by simp [pureResponse, Ports.get, ha, hb])

/-! ### The statements -/

/-- Settles O21: the sum is the one function's response, its length is read off the sizes. -/
theorem addGivesTheSum : Obligations.AddGivesTheSum := by
  refine ⟨rfl, isBitLength_add, fun s r rest n m hr ha hb => ?_⟩
  obtain ⟨t, hexec, hans⟩ := exec_add_answers hr ha hb
  exact ⟨t, hexec, hans, exec_add_next_usesAdder hexec⟩

/-- Settles O22: both laws are those of the numbers that `ADD` answers. -/
theorem addLaws : Obligations.AddLaws := by
  refine ⟨fun s r rest n hr ha hb => ?_, fun s s' r r' rest n m hr ha hb hr' ha' hb' => ?_⟩
  · simpa only [val_enc, Nat.add_zero] using exec_add_answers hr ha hb
  · obtain ⟨t, hexec, hans⟩ := exec_add_answers hr ha hb
    obtain ⟨t', hexec', hans'⟩ := exec_add_answers hr' ha' hb'
    exact ⟨_, t, t', hexec, hans, hexec', Nat.add_comm (val m) (val n) ▸ hans'⟩

/-- Settles O23: the invariant holds at every position, and both operands fit in `L` of them. -/
theorem adderRippleKeepsTheSum : Obligations.AdderRippleKeepsTheSum := fun n m =>
  ⟨fun k => ⟨adderRipple_i n m k, adderRipple_result_lt n m k, adderRipple_sum n m k⟩,
    adderRipple_carry (val_lt_two_pow_of_bitlen_le (le_max_left ..))
      (val_lt_two_pow_of_bitlen_le (le_max_right ..))⟩

end Sys2Proof.Machine

end

/-! PROOFS. The statements of 43_subtractor.md: the ripple's invariant (the derivation under R61), the
exact difference (R61), the open value below zero (R62), and the bound on every result (R63). -/

section

namespace Sys2Proof.Machine

/-! ### The ripple's invariant -/

/-- R60: the Subtractor's registers after `k` positions on the operands `n` and `m`, from carry seed
1. -/
def subtractorRipple (n m : BitVector) (k : Nat) : RippleRegs :=
  RippleRegs.run (fun b => b ^^ true) (bits n) (bits m) k (RippleRegs.seeded true)

/-- R60: a whole `SUB` ripples through all positions of the longer operand. -/
theorem subRipple_eq_subtractorRipple (n m : BitVector) :
    subRipple n m = subtractorRipple n m (max (bitlen n) (bitlen m)) := rfl

theorem subtractorRipple_i (n m : BitVector) (k : Nat) : (subtractorRipple n m k).i = k := by
  simpa [subtractorRipple, RippleRegs.seeded] using
    (RippleRegs.run_arith (fun b => b ^^ true) (bits n) (bits m) k (RippleRegs.seeded true)).1

theorem subtractorRipple_result_lt (n m : BitVector) (k : Nat) :
    (subtractorRipple n m k).result < 2 ^ k := by
  simpa [subtractorRipple, RippleRegs.seeded] using
    RippleRegs.run_result_lt (fun b => b ^^ true) (bits n) (bits m) k (RippleRegs.seeded true)
      Nat.one_pos

/-- The induction's invariant under R61: the seed 1 makes the complement of the subtrahend's low bits
up to `2^k`. -/
theorem subtractorRipple_sum (n m : BitVector) (k : Nat) :
    (subtractorRipple n m k).result + (subtractorRipple n m k).carry.toNat * 2 ^ k + val m % 2 ^ k
      = val n % 2 ^ k + 2 ^ k := by
  have hrun : (subtractorRipple n m k).result + (subtractorRipple n m k).carry.toNat * 2 ^ k
      = 1 + val n % 2 ^ k + bitSum (fun j => !bitAt (bits m) j) 0 k := by
    simpa [subtractorRipple, RippleRegs.seeded, bitSum_bits_eq_mod] using
      (RippleRegs.run_arith (fun b => b ^^ true) (bits n) (bits m) k (RippleRegs.seeded true)).2
  have hcompl : bitSum (fun j => !bitAt (bits m) j) 0 k + val m % 2 ^ k + 1 = 2 ^ k := by
    simpa [bitSum_bits_eq_mod] using bitSum_not (bitAt (bits m)) 0 k
  omega

/-- R61: after as many positions as hold the minuend, a subtrahend not above it leaves the carry 1:
a result below `2^k` cannot hold the `2^k` of the invariant. -/
theorem subtractorRipple_carry {n m : BitVector} {k : Nat} (hn : val n < 2 ^ k)
    (h : val m ≤ val n) : (subtractorRipple n m k).carry = true := by
  have hlt := subtractorRipple_result_lt n m k
  have hsum := subtractorRipple_sum n m k
  rw [Nat.mod_eq_of_lt hn, Nat.mod_eq_of_lt (h.trans_lt hn)] at hsum
  cases hc : (subtractorRipple n m k).carry with
  | false =>
    rw [hc, Bool.toNat_false, zero_mul] at hsum
    omega
  | true => rfl

/-! ### The operation -/

/-- A `SUB` that goes on has used no transient registers but the Subtractor's (assumption 3). -/
theorem exec_sub_next_usesSubtractor {s t : State} (h : exec .sub s = .next t) :
    UsesSubtractor s t := by
  obtain ⟨n, -, hn⟩ := withBitVector_next h
  obtain ⟨m, -, hm⟩ := withBitVector_next hn
  cases hm
  exact ⟨rfl, rfl, rfl⟩

/-- R61, R62: with BitVectors on its two ports `SUB` answers their difference or, below zero, the open
value, and uses no transient registers but the Subtractor's. -/
theorem exec_sub_answers {s : State} {r : Request} {rest : List Request} {n m : BitVector}
    (hr : s.requests = r :: rest) (ha : r.ports.a = .ofBitVector n)
    (hb : r.ports.b = .ofBitVector m) :
    ∃ t, exec .sub s = .next t ∧
      Answers s t r rest (.okOne (.nat
        (if val n < val m then subUnderflow (val n) (val m) else val n - val m))) ∧
      UsesSubtractor s t := by
  have hresp : pureResponse .sub r.ports = some (.okOne (.nat
      (if val n < val m then subUnderflow (val n) (val m) else val n - val m))) := by
    simp [pureResponse, Ports.get, ha, hb]
  obtain ⟨t, hexec, hans⟩ := exec_answers_of_pureResponse hr hresp
  exact ⟨t, hexec, hans, exec_sub_next_usesSubtractor hexec⟩

/-! ### The statements -/

/-- Settles O24: the response where the subtrahend does not exceed the minuend. -/
theorem subGivesTheDifference : Obligations.SubGivesTheDifference := by
  refine ⟨rfl, fun s r rest n m hr ha hb hle => ?_⟩
  obtain ⟨t, hexec, hans, huses⟩ := exec_sub_answers hr ha hb
  rw [if_neg (Nat.not_lt.mpr hle)] at hans
  exact ⟨_, t, hexec, hans, rfl, Nat.sub_add_cancel hle, huses⟩

/-- Settles O25: the function is the model's `subUnderflow`, the response where the subtrahend exceeds
the minuend. -/
theorem subUnderflowIsAnOpenBoundedFunction : Obligations.SubUnderflowIsAnOpenBoundedFunction := by
  refine ⟨subUnderflow, fun n m _ => subUnderflow_lt n m, fun s r rest n m hr ha hb hlt => ?_⟩
  simpa only [if_pos hlt] using exec_sub_answers hr ha hb

/-- Settles O26: the open value is bounded by its definition, the difference by the minuend. -/
theorem subResultFitsTheLongerOperand : Obligations.SubResultFitsTheLongerOperand := by
  intro s r rest n m hr ha hb
  obtain ⟨t, hexec, hans, -⟩ := exec_sub_answers hr ha hb
  refine ⟨_, t, hexec, hans, ?_⟩
  split_ifs with hlt
  · exact subUnderflow_lt n m
  · exact (Nat.sub_le ..).trans_lt (val_lt_two_pow_of_bitlen_le (le_max_left ..))

/-- Settles O27: the invariant holds at every position, and the minuend fits in the positions of the
whole ripple. -/
theorem subtractorRippleAddsTheComplement : Obligations.SubtractorRippleAddsTheComplement :=
  fun n m =>
    ⟨fun k => ⟨subtractorRipple_i n m k, subtractorRipple_result_lt n m k,
        subtractorRipple_sum n m k⟩,
      fun hle => ⟨by
        rw [subRipple_eq_subtractorRipple]
        exact subtractorRipple_carry (val_lt_two_pow_of_bitlen_le (le_max_left ..)) hle,
        subRipple_result n m hle⟩⟩

end Sys2Proof.Machine

end

/-! PROOFS. The statements of 44_multiplier.md: the loop's invariant (the derivation under R66) and the
exact product (R66). -/

section

namespace Sys2Proof.Machine

/-! ### The loop's invariant -/

/-- R21: the first `k` bits of a bit sequence hold its value mod `2^k`. -/
theorem bitsVal_take (xs : BitSeq) (k : Nat) : bitsVal (xs.take k) = bitsVal xs % 2 ^ k := by
  induction xs generalizing k with
  | nil => simp [bitsVal]
  | cons b xs ih =>
    cases k with
    | zero => simp [bitsVal, Nat.mod_one]
    | succ k =>
      have hb := b.toNat_le
      have hlow : (b.toNat + 2 * bitsVal xs) % 2 = b.toNat := by omega
      have hhigh : (b.toNat + 2 * bitsVal xs) / 2 = bitsVal xs := by omega
      rw [List.take_succ_cons, bitsVal, bitsVal, ih, pow_succ', Nat.mod_mul, hlow, hhigh]

/-- R65: the position counter counts the bits walked, whatever they are. -/
theorem Work.foldl_mulStep_pos (n : BitVector) (ms : BitSeq) (w : Work) :
    (ms.foldl (Work.mulStep n) w).multiplier.pos = w.multiplier.pos + ms.length := by
  induction ms generalizing w with
  | nil => rfl
  | cons b ms ih => rw [List.foldl_cons, ih, Work.mulStep_pos, List.length_cons]; omega

/-- R65: from position 0, the counter ends at the number of bits walked. -/
theorem Work.mulRun_pos (w : Work) (n : BitVector) (ms : BitSeq) :
    (w.mulRun n ms).multiplier.pos = ms.length := by
  simp [Work.mulRun, Work.foldl_mulStep_pos]

/-- R65: from the accumulator `enc(0)`, the bits walked multiply `n` by their value. -/
theorem Work.val_mulRun_acc (w : Work) (n : BitVector) (ms : BitSeq) :
    val (w.mulRun n ms).multiplier.acc = val n * bitsVal ms := by
  simp [Work.mulRun, Work.val_foldl_mulStep_acc, val_enc]

/-! ### The storage of the other blocks -/

/-- One turn uses no transient registers but the Multiplier's and, to add, the Adder's. -/
theorem Work.mulStep_frame (n : BitVector) (w : Work) (b : Bit) :
    (w.mulStep n b).subtractor = w.subtractor ∧ (w.mulStep n b).divider = w.divider := by
  cases b with
  | false => exact ⟨rfl, rfl⟩
  | true => exact ⟨rfl, rfl⟩

/-- The turns for any bits leave the Subtractor's and the Divider's storage alone. -/
theorem Work.foldl_mulStep_frame (n : BitVector) (ms : BitSeq) (w : Work) :
    (ms.foldl (Work.mulStep n) w).subtractor = w.subtractor ∧
      (ms.foldl (Work.mulStep n) w).divider = w.divider := by
  induction ms generalizing w with
  | nil => exact ⟨rfl, rfl⟩
  | cons b ms ih =>
    obtain ⟨hsub, hdiv⟩ := ih (w.mulStep n b)
    obtain ⟨hsubStep, hdivStep⟩ := w.mulStep_frame n b
    exact ⟨hsub.trans hsubStep, hdiv.trans hdivStep⟩

/-- A `MUL` that goes on has used no transient registers but the Multiplier's and the Adder's
(assumption 3). -/
theorem exec_mul_next_usesMultiplier {s t : State} (h : exec .mul s = .next t) :
    UsesMultiplier s t := by
  obtain ⟨n, -, hn⟩ := withBitVector_next h
  obtain ⟨m, -, hm⟩ := withBitVector_next hn
  obtain ⟨hsub, hdiv⟩ :=
    Work.foldl_mulStep_frame n (bits m) { s.work with multiplier := ⟨enc 0, 0⟩ }
  cases hm
  exact ⟨hsub, hdiv⟩

/-! ### The statements -/

/-- Settles O28: the product is the one function's response, the frame is that of the loop. -/
theorem mulGivesTheProduct : Obligations.MulGivesTheProduct := by
  refine ⟨rfl, fun s r rest n m hr ha hb => ?_⟩
  have hresp : pureResponse .mul r.ports = some (.okOne (.nat (val n * val m))) := by
    simp [pureResponse, Ports.get, ha, hb]
  obtain ⟨t, hexec, hans⟩ := exec_answers_of_pureResponse hr hresp
  exact ⟨t, hexec, hans, exec_mul_next_usesMultiplier hexec⟩

/-- Settles O29: the run over the first `k` bits of `m` has walked `k` bits, of value
`val(m) mod 2^k`. -/
theorem multiplierAccumulatesPartialProducts :
    Obligations.MultiplierAccumulatesPartialProducts := by
  intro w n m k hk
  refine ⟨?_, ?_⟩
  · rw [Work.mulRun_pos, List.length_take_of_le hk]
  · rw [Work.val_mulRun_acc, bitsVal_take, bitsVal_bits]

end Sys2Proof.Machine

end

/-! PROOFS. The statements of 45_divider.md: the step's bounds (R73), the loop's invariant (the
derivation under R74), the inner subtraction (R76), and what `DIV` answers (R70, R74). -/

section

namespace Sys2Proof.Machine

/-! ### The loop's invariant -/

/-- R74: whatever the registers held before, the run over any bits keeps the invariant for the number
those bits form, most significant first. -/
theorem DividerHolds.divRun {m : BitVector} (hm : val m ≠ 0) (w : Work) (bs : BitSeq) :
    DividerHolds m (w.divRun m bs) (bs.foldl (fun p b => 2 * p + b.toNat) 0) := by
  have hstart : DividerHolds m { w with divider := ⟨0, 0⟩ } 0 :=
    ⟨by simp, Nat.pos_of_ne_zero hm⟩
  exact hstart.foldl_divStep bs

/-- R73: a remainder below `val(m)`, doubled and with the next bit added, is below `2 * val(m)`. -/
theorem DividerHolds.divShift_remainder_lt {m : BitVector} {w : Work} {p : Nat}
    (h : DividerHolds m w p) (b : Bit) : (w.divShift b).divider.remainder < 2 * val m := by
  have hsmall := h.small
  have hb := b.toNat_le
  simp only [Work.divShift]
  omega

/-! ### The inner subtraction -/

/-- R48: a greater value has no shorter bit view. -/
theorem bitlen_le_of_val_le {v u : BitVector} (h : val v ≤ val u) : bitlen v ≤ bitlen u := by
  rw [bitlen_eq, bitlen_eq]
  exact max_le_max le_rfl (Nat.size_le_size h)

/-- R60: a whole `SUB` ends at the position behind the longer operand's last bit. -/
theorem Work.subRun_i (w : Work) (n m : BitVector) :
    (w.subRun n m).subtractor.i = max (bitlen n) (bitlen m) :=
  subtractorRipple_i n m (max (bitlen n) (bitlen m))

/-- R76: an operand from `val(m)` to `2 * val(m)` is as long as `m` or one bit longer, the latter being
the length of `m` shifted left by one (R46). -/
theorem bitlen_enc_of_le_of_lt {m : BitVector} {x : Nat} (hle : val m ≤ x) (hlt : x < 2 * val m) :
    bitlen (enc x) = bitlen m ∨ bitlen (enc x) = bitlen m + 1 := by
  have hlower : bitlen m ≤ bitlen (enc x) := bitlen_le_of_val_le (by rwa [val_enc])
  have hupper : bitlen (enc x) ≤ bitlen (shl m 1) :=
    bitlen_le_of_val_le (by rw [shl, val_enc, val_enc]; omega)
  rw [bitlen_shl (by omega)] at hupper
  omega

/-- R76: the ripple of a step's subtraction has as many positions as the remainder has bits. -/
theorem Work.divSubtract_subtractor_i (w : Work) (m : BitVector) (h : val m ≤ w.divider.remainder) :
    (w.divSubtract m).subtractor.i = bitlen (enc w.divider.remainder) := by
  have hlen : bitlen m ≤ bitlen (enc w.divider.remainder) :=
    bitlen_le_of_val_le (by rwa [val_enc])
  exact (w.subRun_i (enc w.divider.remainder) m).trans (max_eq_left hlen)

/-! ### The storage of the other blocks -/

/-- One step uses no transient registers but the Divider's and, to subtract, the Subtractor's. -/
theorem Work.divStep_frame (m : BitVector) (w : Work) (b : Bit) :
    (w.divStep m b).adder = w.adder ∧ (w.divStep m b).multiplier = w.multiplier := by
  by_cases h : val m ≤ (w.divShift b).divider.remainder
  · rw [Work.divStep, if_pos h]; exact ⟨rfl, rfl⟩
  · rw [Work.divStep, if_neg h]; exact ⟨rfl, rfl⟩

/-- The steps for any bits leave the Adder's and the Multiplier's storage alone. -/
theorem Work.foldl_divStep_frame (m : BitVector) (bs : BitSeq) (w : Work) :
    (bs.foldl (Work.divStep m) w).adder = w.adder ∧
      (bs.foldl (Work.divStep m) w).multiplier = w.multiplier := by
  induction bs generalizing w with
  | nil => exact ⟨rfl, rfl⟩
  | cons b bs ih =>
    obtain ⟨hadd, hmul⟩ := ih (w.divStep m b)
    obtain ⟨haddStep, hmulStep⟩ := w.divStep_frame m b
    exact ⟨hadd.trans haddStep, hmul.trans hmulStep⟩

/-- A `DIV` that goes on has used no transient registers but the Divider's and the Subtractor's
(assumption 3); when it answers its error, not even those. -/
theorem exec_div_next_usesDivider {s t : State} (h : exec .div s = .next t) : UsesDivider s t := by
  obtain ⟨n, -, hn⟩ := withBitVector_next h
  obtain ⟨m, -, hm⟩ := withBitVector_next hn
  by_cases hzero : val m = 0
  · simp only [hzero, if_true] at hm
    cases hm
    exact ⟨rfl, rfl⟩
  · obtain ⟨hadd, hmul⟩ :=
      Work.foldl_divStep_frame m (bitsReversed n) { s.work with divider := ⟨0, 0⟩ }
    simp only [hzero, if_false] at hm
    cases hm
    exact ⟨hadd, hmul⟩

/-! ### The zero divisor -/

/-- R70: since BitVectors are canonical, `val(m) = 0` exactly when `m = [0x00]`. -/
theorem val_eq_zero_iff_bytes (m : BitVector) : val m = 0 ↔ m.bytes = [0x00#8] :=
  ⟨bytes_of_val_eq_zero, fun h => by simp [val, h, valBytes]⟩

/-- R70, R82: with a zero divisor `DIV` raises its error on the state that accepted it, before any
register of the Divider is initialised. -/
theorem exec_div_of_val_eq_zero {s : State} {n m : BitVector}
    (ha : s.ports.get .a = .ofBitVector n) (hb : s.ports.get .b = .ofBitVector m)
    (hm : val m = 0) : exec .div s = .next ((s.begin .div).raise .divisionByZero) := by
  simp only [exec, execDiv, withBitVector_of_ports ha, withBitVector_of_ports hb, hm, if_true]

/-! ### The statements -/

/-- Settles O31: quotient and remainder are the one function's response, the frame is that of the
loop. -/
theorem divGivesQuotientAndRemainder : Obligations.DivGivesQuotientAndRemainder := by
  refine ⟨rfl, fun s r rest n m hr ha hb hm => ?_⟩
  have hresp : pureResponse .div r.ports
      = some (.okTwo (.nat (val n / val m)) (.nat (val n % val m))) := by
    simp [pureResponse, Ports.get, ha, hb, hm]
  obtain ⟨t, hexec, hans⟩ := exec_answers_of_pureResponse hr hresp
  exact ⟨_, _, t, hexec, hans, Nat.div_add_mod' .., Nat.mod_lt _ (Nat.pos_of_ne_zero hm),
    exec_div_next_usesDivider hexec⟩

/-- Settles O32: the bound before the subtraction follows from the invariant for the bits consumed, the
bound after it is that of the invariant for one bit more. -/
theorem dividerStepKeepsTheRemainderSmall : Obligations.DividerStepKeepsTheRemainderSmall :=
  fun w _ consumed b hm =>
    ⟨(DividerHolds.divRun hm w consumed).divShift_remainder_lt b,
      (DividerHolds.divRun hm w (consumed ++ [b])).small⟩

/-- Settles O33: the invariant's sum. -/
theorem dividerKeepsTheConsumedPart : Obligations.DividerKeepsTheConsumedPart :=
  fun w _ consumed hm => (DividerHolds.divRun hm w consumed).sum

/-- Settles O34: the guard is the precondition of `SUB`, and with R73's bound it leaves the remainder
two possible lengths. -/
theorem dividerNeverUnderflows : Obligations.DividerNeverUnderflows := by
  intro w m consumed b hm u hle
  have hlt : u.divider.remainder < 2 * val m :=
    (DividerHolds.divRun hm w consumed).divShift_remainder_lt b
  refine ⟨?_, ?_⟩
  · rw [Work.divSubtract_divider u m hle]
  · rw [Work.divSubtract_subtractor_i u m hle]
    exact bitlen_enc_of_le_of_lt hle hlt

/-- Settles O30: the error is raised on the accepted request, and raising it touches no register. -/
theorem divByZeroRaisesDivisionByZero : Obligations.DivByZeroRaisesDivisionByZero := by
  refine ⟨val_eq_zero_iff_bytes, fun s r rest n m hr ha hb hm => ?_⟩
  have hports := State.ports_of_requests hr
  exact ⟨_, exec_div_of_val_eq_zero (by rwa [hports]) (by rwa [hports]) hm,
    answers_respond hr rfl rfl, ⟨rfl, rfl⟩⟩

end Sys2Proof.Machine

end

/-! PROOFS. The statements of 60_exceptions.md: the status codes (R83). -/

section

namespace Sys2Proof.Machine

/-- R83: every status has one of the three codes below 3. -/
theorem statusCode_toNat_lt_three (st : Status) : (statusCode st).toNat < 3 := by
  cases st with
  | ok | outOfRange | divisionByZero => decide

/-- R83: a code below 3 is not 3. -/
theorem statusCode_ne_three (st : Status) : statusCode st ≠ 3#2 := by
  intro h
  have hlt : (3#2).toNat < 3 := h ▸ statusCode_toNat_lt_three st
  exact absurd hlt (by decide)

/-- Settles O36: the table gives the three codes, and a code of any status is below 3. -/
theorem statusCodesAreZeroOneTwo : Obligations.StatusCodesAreZeroOneTwo :=
  ⟨rfl, rfl, rfl, statusCode_ne_three⟩

end Sys2Proof.Machine

end

/-! PROOFS. The statements of 70_reset_and_hazards.md: reset (R19, R90), the loops' step counts (R97),
an idle unit and a presented word (assumptions 6 and 7), and the headline: every response given is the
one that the laws of 95_test_vectors.md section 1 name. -/

section

namespace Sys2Proof.Machine

/-! ### The views and the differences as the laws state them -/

/-- R21, R48: the model's forward view is the forward view of the value. -/
theorem isBitView_bits (v : BitVector) : IsBitView (val v) (bits v) where
  length := isBitLength_bitlen v
  bit := bits_getElem_toNat v

/-- R62: when the subtrahend is the greater operand it is also the longer one, so the open value is
below `2 ^ bitlen(m)`. -/
theorem subUnderflow_lt_of_val_lt {n m : BitVector} (h : val n < val m) :
    subUnderflow (val n) (val m) < 2 ^ bitlen m := by
  have hlen : max (bitlen n) (bitlen m) = bitlen m := max_eq_right (bitlen_le_of_val_le h.le)
  exact hlen ▸ subUnderflow_lt n m

/-! ### The one function obeys the laws -/

/-- What `read` reads from a port stands on that port, and the rest went on with it; `read` is one of
the three readers of R35, each with its own `..._eq_some`. -/
theorem exists_carried_of_bind {α : Type} {read : PortValue → Option α} {carried : α → PortValue}
    {x : PortValue} {f : α → Option Response} {resp : Response}
    (hread : ∀ {a}, read x = some a ↔ x = carried a) (h : (read x).bind f = some resp) :
    ∃ a, x = carried a ∧ f a = some resp := by
  obtain ⟨a, ha, hf⟩ := Option.bind_eq_some_iff.mp h
  exact ⟨a, hread.mp ha, hf⟩

/-- L-6, R62: the response to a `SUB` is the difference or, below zero, a value no longer than the
subtrahend. -/
theorem lawfulAnswer_sub {p : Ports} {n m : BitVector} (ha : p.a = .ofBitVector n)
    (hb : p.b = .ofBitVector m) :
    LawfulAnswer .sub p (.okOne (.nat
      (if val n < val m then subUnderflow (val n) (val m) else val n - val m))) := by
  refine ⟨n, m, _, ha, hb, rfl, ?_⟩
  by_cases hlt : val n < val m
  · rw [if_neg (Nat.not_le.mpr hlt), if_pos hlt]
    exact ⟨bitlen m, isBitLength_bitlen m, subUnderflow_lt_of_val_lt hlt⟩
  · rw [if_pos (Nat.not_lt.mp hlt), if_neg hlt]
    exact Nat.sub_add_cancel (Nat.not_lt.mp hlt)

/-- L-8: the response to a `DIV` is the error for a zero divisor, else quotient and remainder. -/
theorem lawfulAnswer_div {p : Ports} {n m : BitVector} (ha : p.a = .ofBitVector n)
    (hb : p.b = .ofBitVector m) :
    LawfulAnswer .div p (if val m = 0 then .error .divisionByZero
      else .okTwo (.nat (val n / val m)) (.nat (val n % val m))) := by
  refine ⟨n, m, ha, hb, ?_⟩
  by_cases hzero : val m = 0
  · rw [if_pos hzero, if_pos hzero]
  · rw [if_neg hzero, if_neg hzero]
    exact ⟨_, _, rfl, Nat.div_add_mod' .., Nat.mod_lt _ (Nat.pos_of_ne_zero hzero)⟩

/-- R42: the response to an `ENCW` is the error when the byte count exceeds the width, else the
encoding. -/
theorem lawfulAnswer_encw {p : Ports} {n w : Nat} (ha : p.a = .ofNat n) (hb : p.b = .ofNat w) :
    LawfulAnswer .encw p
      (if w < nbytes n then .error .outOfRange else .okOne (.bitVector (enc n))) := by
  refine ⟨n, w, ha, hb, ?_⟩
  by_cases hlt : w < nbytes n
  · rw [if_pos ((lt_nbytes_iff n w).mp hlt), if_pos hlt]
  · rw [if_neg (mt (lt_nbytes_iff n w).mpr hlt), if_neg hlt]
    exact ⟨_, rfl, encodesCanonically_enc n⟩

/-- Every response of the one function of R6 is what the laws of its operation say. -/
theorem lawfulAnswer_of_pureResponse {i : Instr} {p : Ports} {resp : Response}
    (h : pureResponse i p = some resp) : LawfulAnswer i p resp := by
  cases i with
  | enc =>
    obtain ⟨n, ha, ⟨⟩⟩ := exists_carried_of_bind asNat_eq_some h
    exact ⟨n, _, ha, rfl, encodesCanonically_enc n⟩
  | dec =>
    obtain ⟨v, ha, ⟨⟩⟩ := exists_carried_of_bind asBitVector_eq_some h
    exact ⟨v, _, ha, rfl, encodesCanonically_val v⟩
  | bits | bitsr =>
    obtain ⟨v, ha, ⟨⟩⟩ := exists_carried_of_bind asBitVector_eq_some h
    exact ⟨v, _, ha, rfl, isBitView_bits v⟩
  | shl =>
    obtain ⟨v, ha, hv⟩ := exists_carried_of_bind asBitVector_eq_some h
    obtain ⟨k, hb, ⟨⟩⟩ := exists_carried_of_bind asNat_eq_some hv
    exact ⟨v, k, _, ha, hb, rfl, val_enc _⟩
  | fa =>
    obtain ⟨a, ha, hfa⟩ := exists_carried_of_bind asBit_eq_some h
    obtain ⟨b, hb, hfb⟩ := exists_carried_of_bind asBit_eq_some hfa
    obtain ⟨c, hc, ⟨⟩⟩ := exists_carried_of_bind asBit_eq_some hfb
    exact ⟨a, b, c, _, _, ha, hb, hc, rfl, (fullAdder_arith a b c).symm⟩
  | add | mul =>
    obtain ⟨n, ha, hn⟩ := exists_carried_of_bind asBitVector_eq_some h
    obtain ⟨m, hb, ⟨⟩⟩ := exists_carried_of_bind asBitVector_eq_some hn
    exact ⟨n, m, ha, hb, rfl⟩
  | sub =>
    obtain ⟨n, ha, hn⟩ := exists_carried_of_bind asBitVector_eq_some h
    obtain ⟨m, hb, ⟨⟩⟩ := exists_carried_of_bind asBitVector_eq_some hn
    exact lawfulAnswer_sub ha hb
  | div =>
    obtain ⟨n, ha, hn⟩ := exists_carried_of_bind asBitVector_eq_some h
    obtain ⟨m, hb, ⟨⟩⟩ := exists_carried_of_bind asBitVector_eq_some hn
    exact lawfulAnswer_div ha hb
  | encw =>
    obtain ⟨n, ha, hn⟩ := exists_carried_of_bind asNat_eq_some h
    obtain ⟨w, hb, ⟨⟩⟩ := exists_carried_of_bind asNat_eq_some hn
    exact lawfulAnswer_encw ha hb

/-! ### The lawful transcript -/

/-- An exchange whose request selects `i` is lawful when its response obeys the laws of `i`. -/
theorem lawfulExchange_of_decode {r : Request} {i : Instr} {resp : Response}
    (hd : decode r.op = .ok i) (h : LawfulAnswer i r.ports resp) : LawfulExchange ⟨r, resp⟩ := by
  simpa only [LawfulExchange, hd] using h

/-- One lawful exchange more keeps a state lawful. -/
theorem Lawful.of_answers {s t : State} {r : Request} {rest : List Request} {resp : Response}
    (hs : Lawful s) (hnew : LawfulExchange ⟨r, resp⟩) (h : Answers s t r rest resp) :
    Lawful t := by
  refine ⟨h.idle, fun e he => ?_⟩
  rw [h.transcript, List.mem_append, List.mem_singleton] at he
  rcases he with hold | rfl
  · exact hs.exchanges e hold
  · exact hnew

/-! ### An idle unit and a presented word -/

/-- Assumption 6: with nothing requested there is no next operation. -/
theorem step_of_no_request {s : State} (hidle : s.phase = .idle) (hnone : s.requests = []) :
    step s = .next s := by
  simp [step, State.nextOperation, hidle, hnone]

/-- A word names an operation exactly when the decoder reads it from the word's select field. -/
theorem decodeTableWord_eq_some {nbits w : Nat} {i : Instr} :
    decodeTableWord nbits w = some i ↔ decode (selectOfWord nbits w) = .ok i := by
  unfold decodeTableWord
  cases decode (selectOfWord nbits w) <;> simp

/-- R35: the zero of a type is of that type. -/
theorem admits_zeroOperand (ty : OperandType) : ty.admits (zeroOperand ty) = true := by
  cases ty <;> decide

/-- The request for a code that selects an operation carries that code. -/
theorem zeroRequest_op (op : BitVec 4) : (zeroRequest op).op = op := by
  unfold zeroRequest
  split <;> rfl

/-- Assumption 7: the operands of the request for an operation are the zeros of R32's types. -/
theorem zeroRequest_ports_get {op : BitVec 4} {i : Instr} (hd : decode op = .ok i) (p : Port) :
    (zeroRequest op).ports.get p = zeroOperand (i.operandType p) := by
  simp only [zeroRequest, hd]
  cases p <;> rfl

/-- R35: so those operands are well-formed. -/
theorem operandsWf_zeroRequest {op : BitVec 4} {i : Instr} (hd : decode op = .ok i) :
    i.operandsWf (zeroRequest op).ports = true :=
  (operandsWf_iff ..).mpr fun p => by rw [zeroRequest_ports_get hd, admits_zeroOperand]

/-! ### Reset and the step counts -/

/-- R90, assumption 8: reset takes the waiting requests of an idle unit for the host's own. -/
theorem State.applyReset_requests_of_idle {s : State} (h : s.phase = .idle) :
    s.applyReset.requests = s.requests := by
  simp [State.applyReset, h]

/-- R90: reset drops the request whose operation is in flight. -/
theorem State.applyReset_requests_of_running {s : State} {i : Instr} (h : s.phase = .running i) :
    s.applyReset.requests = s.requests.drop 1 := by
  simp [State.applyReset, h]

/-- R55: a whole `ADD` ends at the position behind the longer operand's last bit; appending the final
carry takes no further position. -/
theorem Work.addRun_i (w : Work) (n m : BitVector) :
    (w.addRun n m).adder.i = max (bitlen n) (bitlen m) :=
  adderRipple_i n m (max (bitlen n) (bitlen m))

/-! ### The statements -/

/-- Settles O45: a step from an idle unit adds nothing, or the exchange of its head request with the
one function's response, which is lawful. -/
theorem stepKeepsEveryResponseLawful : Obligations.StepKeepsEveryResponseLawful := by
  intro s t hs h
  rcases step_cases h with ⟨i, hrun, -⟩ | ⟨-, -, rfl⟩ | ⟨i, r, rest, -, hr, hd, hexec⟩
  · exact absurd (hs.idle.symm.trans hrun) (by simp)
  · exact hs
  · obtain ⟨resp, hresp, hans⟩ := exec_next_answers hr hexec
    exact hs.of_answers (lawfulExchange_of_decode hd (lawfulAnswer_of_pureResponse hresp)) hans

/-- Settles O35: each block's counter at the end of its run. -/
theorem stepCounts : Obligations.StepCounts :=
  fun w n m => ⟨w.addRun_i n m, w.subRun_i n m, w.mulRun_pos n (bits m)⟩

/-- Settles O6: by what the step does when there is no next operation. -/
theorem stepWithoutARequestChangesNothing : Obligations.StepWithoutARequestChangesNothing :=
  fun _ => step_of_no_request

/-- Settles O7: the presented request is well-formed, so it is performed (O8), and it alone is done
with. -/
theorem presentedWordIsPerformedNext : Obligations.PresentedWordIsPerformedNext := by
  intro s nbits w i hw
  have hd := decodeTableWord_eq_some.mp hw
  have hr : (s.withFetchWord nbits w).requests
      = zeroRequest (selectOfWord nbits w) :: s.requests := rfl
  have hwf : i.operandsWf (s.withFetchWord nbits w).ports = true :=
    State.ports_of_requests hr ▸ operandsWf_zeroRequest hd
  obtain ⟨hperformed, -⟩ := exactlyWellFormedRequestsArePerformed i (s.withFetchWord nbits w)
  obtain ⟨t, hexec⟩ := hperformed hwf
  obtain ⟨_, -, hans⟩ := exec_next_answers hr hexec
  have hstep := step_of_decode rfl hr (by rwa [zeroRequest_op])
  exact ⟨t, hstep.trans hexec, hexec, hans.requests⟩

/-- Settles O42: the fields of the reset state. -/
theorem resetIsIdle : Obligations.ResetIsIdle := ⟨rfl, rfl, rfl⟩

/-- Settles O43: by the phase that reset finds the unit in. -/
theorem resetAbandonsTheOperationInFlight : Obligations.ResetAbandonsTheOperationInFlight := by
  refine fun s => ⟨s.applyReset_phase, s.applyReset_transcript,
    State.applyReset_requests_of_idle, fun i r rest hrun hr => ?_⟩
  rw [State.applyReset_requests_of_running hrun, hr, List.drop_one, List.tail_cons]

/-- Settles O44: after reset there is no response that could be unlawful. -/
theorem resetIsLawful : Obligations.ResetIsLawful :=
  ⟨rfl, fun _ he => absurd he List.not_mem_nil⟩

/-- Settles O47: likewise none that could differ from the function's. -/
theorem resetFollowsAnyFunction : Obligations.ResetFollowsAnyFunction :=
  fun _ => ⟨rfl, fun _ he => absurd he List.not_mem_nil⟩

end Sys2Proof.Machine

end
